-- ==== Sys2Proof/Word.lean ====
section
/-! DEFINITION. The unsigned types of the block (00_scope.md R10). Nothing in the block is signed. -/

namespace Sys2Proof

/-- `u8`: one byte of a buffer. Bit 0 is the least significant bit (R8). -/
abbrev Byte := BitVec 8

/-- `u4`: a nibble of byte 4 of a SYN header. -/
abbrev U4 := BitVec 4

/-- `u16`: a checksum word, the accumulator, a 16-bit header field. -/
abbrev U16 := BitVec 16

/-- `u32`: the connection identifier. -/
abbrev U32 := BitVec 32

end Sys2Proof
end

