-- ==== Sys2Proof/Config.lean ====
section
/-! DEFINITION. The one parameter the spec leaves open: `MAX_LEN` (00_scope.md R7, 92_eei_decisions.md D3). No output of
the block is left open, so there is no free value here. -/

namespace Sys2Proof.Config

/-- `MAX_LEN`: `none` is "unbounded", the spec's own choice for a model that needs no bound (R7; log 6). -/
def maxLen : Option Nat := none

/-- `0 <= len <= MAX_LEN`, for any value of the parameter. -/
def admits (bound : Option Nat) (len : Nat) : Bool :=
  match bound with
  | none => true
  | some m => decide (len ≤ m)

end Sys2Proof.Config
end

