-- ==== Sys2Proof/Syntax.lean ====
section
/-! DEFINITION. The operation set: one constructor per row of spec/opcode_table.json, with the operands the rule of the row
names. A buffer is an operand by value, a list of bytes in offset order (20_memory.md R43, 00_scope.md R9). Also what the table's
rows are matched over. -/

namespace Sys2Proof

/-- The 13 rows of the opcode table. -/
inductive Instr where
  /-- `CSUM`: the checksum of the request buffer (R65). -/
  | csum (buf : List Byte)
  /-- `DECODE`: parse the header of one segment (R73). -/
  | decode (buf : List Byte)
  /-- `VERIFY`: pseudo-operation, a `CSUM` read through `csum_zero` (R69). -/
  | verify (buf : List Byte)
  /-- `SUM16`: internal primitive, the `ACC <- SUM16(a, b)` of `CSUM` (R61). -/
  | sum16 (a b : U16)
  /-- `HDR.DATA`: the shape of a segment whose SYN bit is clear (R52, R101). -/
  | hdrData (buf : List Byte)
  /-- `HDR.SYN`: the shape of a segment whose SYN bit is set (R53, R84). -/
  | hdrSyn (buf : List Byte)
  /-- `DECODE.COMMON`: extraction of the common header (R79). -/
  | decodeCommon (buf : List Byte)
  /-- `DECODE.FLAGS`: unpacking of the flag byte (R80). -/
  | decodeFlags (raw : Byte)
  /-- `DECODE.SYNEXT`: extraction of the SYN extension (R83, R84). -/
  | decodeSynext (buf : List Byte)
  /-- `DECODE.NONSYN`: extraction of the non-SYN header (R100, R101). -/
  | decodeNonsyn (buf : List Byte)
  /-- `ERR.TooShort`: `raise TooShort` (R105, R110). -/
  | errTooShort
  /-- `ERR.TooShortForCommon`: `raise TooShortForCommon` (R106, R110). -/
  | errTooShortForCommon
  /-- `ERR.TooShortForSyn`: `raise TooShortForSyn` (R107, R110). -/
  | errTooShortForSyn
  deriving DecidableEq, Repr

/-- The control part of a request: `op` and `len` (10_state.md R14). Its third member, the buffer, is the host's memory. -/
structure Request where
  op : BitVec 1
  len : Nat
  deriving DecidableEq, Repr

/-- The three things the table's rows are matched over (30_encoding.md section 8): the `op` of a request with its buffer as the
host stores it, a buffer whose byte 0 tells the header shape, and the `status` of a `DECODE` response. -/
inductive Words where
  | request (r : Request) (cells : List Host.Cell)
  | header (buf : List Byte)
  | status (code : BitVec 2)
  deriving DecidableEq, Repr

end Sys2Proof
end

