-- ==== Sys2Proof/WellFormed.lean ====
section
/-! DEFINITION. When an instruction is one the block performs: its buffer is no longer than `MAX_LEN` (R7), and a step of
`DECODE` is given a buffer that passed the gates before it (R74, R75, R83, R100). -/

namespace Sys2Proof

/-- Bit 7 of byte 0 of a buffer: the SYN bit, absent from the empty buffer (30_encoding.md R51, R55). -/
def synBit (buf : List Byte) : Option Bool := buf.head?.map (·.getLsbD 7)

/-- Well-formedness under a given `MAX_LEN`. -/
def Instr.wfFor (bound : Option Nat) : Instr → Bool
  | .csum buf => Config.admits bound buf.length
  | .decode buf => Config.admits bound buf.length
  | .verify buf => Config.admits bound buf.length
  | .sum16 _ _ => true
  | .hdrData buf => Config.admits bound buf.length && synBit buf == some false && decide (8 ≤ buf.length)
  | .hdrSyn buf => Config.admits bound buf.length && synBit buf == some true && decide (22 ≤ buf.length)
  | .decodeCommon buf => Config.admits bound buf.length && decide (4 ≤ buf.length)
  | .decodeFlags _ => true
  | .decodeSynext buf => Config.admits bound buf.length && synBit buf == some true && decide (22 ≤ buf.length)
  | .decodeNonsyn buf => Config.admits bound buf.length && synBit buf == some false && decide (8 ≤ buf.length)
  | .errTooShort => true
  | .errTooShortForCommon => true
  | .errTooShortForSyn => true

/-- Well-formedness in this machine, whose `MAX_LEN` is `Config.maxLen`. -/
def Instr.wf (i : Instr) : Bool := i.wfFor Config.maxLen

end Sys2Proof
end

