-- ==== Sys2Proof/Decode.lean ====
section
/-! DEFINITION. The decoder and the encoder of the three spaces the opcode table is matched over (30_encoding.md R48, R55, R59 and
section 8), and the laying out of a buffer in the host's memory. -/

namespace Sys2Proof

/-- Why words stand for no instruction. -/
inductive Reject where
  /-- The memory does not hold bytes at exactly the offsets 0, 1, 2, ... (R14, R31; U14). -/
  | bufferNotContiguous
  /-- `len` is not the number of bytes of `buf` (R14; D10, U14). -/
  | lenMismatch
  /-- `len` is above `MAX_LEN` (R7). -/
  | tooLong
  /-- The empty buffer has no byte 0 to tell a shape by (R76). -/
  | noByteZero
  /-- `status = 0` is `Ok`, no error outcome (R59). -/
  | statusIsOk
  deriving DecidableEq, Repr

/-! ## A buffer in the host's memory -/

/-- The cells of a byte list placed from offset `k` on. -/
def cellsFrom : Nat → List Byte → List Host.Cell
  | _, [] => []
  | k, b :: bs => (k, b) :: cellsFrom (k + 1) bs

/-- Byte `i` of a buffer is at offset `i` (R9, R31). -/
def cellsOf (buf : List Byte) : List Host.Cell := cellsFrom 0 buf

/-- The bytes of cells that lie at offsets `k, k+1, ...` without a gap. -/
def bufferFrom : Nat → List Host.Cell → Option (List Byte)
  | _, [] => some []
  | k, (a, b) :: m => if a = k then (bufferFrom (k + 1) m).map (b :: ·) else none

/-- The buffer a memory holds: its addressable offsets are exactly `0 .. len-1` (R31). -/
def bufferOf (cells : List Host.Cell) : Option (List Byte) := bufferFrom 0 cells

/-! ## Decoding -/

/-- `op = 0` is `CSUM`, `op = 1` is `DECODE` (R48). -/
def decodeOp (op : BitVec 1) (buf : List Byte) : Instr :=
  if op = 0 then .csum buf else .decode buf

/-- A request: the buffer is read from the host's memory and must have exactly `len` bytes (R14), at most `MAX_LEN` (R7). -/
def decodeRequest (r : Request) (cells : List Host.Cell) : Except Reject Instr :=
  match bufferOf cells with
  | none => .error .bufferNotContiguous
  | some buf =>
    if r.len ≠ buf.length then .error .lenMismatch
    else if Config.admits Config.maxLen buf.length then .ok (decodeOp r.op buf)
    else .error .tooLong

/-- The header shape by byte 0: match and mask of R55. -/
def decodeHeader : List Byte → Except Reject Instr
  | [] => .error .noByteZero
  | b :: bs => if b &&& 0x80 = 0x80 then .ok (.hdrSyn (b :: bs)) else .ok (.hdrData (b :: bs))

/-- The error outcome by the 2-bit `status` (R59). -/
def decodeStatus (code : BitVec 2) : Except Reject Instr :=
  if code = 1 then .ok .errTooShort
  else if code = 2 then .ok .errTooShortForCommon
  else if code = 3 then .ok .errTooShortForSyn
  else .error .statusIsOk

/-- The decoder, total on any words of any of the three spaces. -/
def decodeWords : Words → Except Reject Instr
  | .request r cells => decodeRequest r cells
  | .header buf => decodeHeader buf
  | .status code => decodeStatus code

/-! ## Encoding -/

/-- The request with operation code `op` on `buf`. -/
def requestWords (op : BitVec 1) (buf : List Byte) : Words :=
  .request { op := op, len := buf.length } (cellsOf buf)

/-- The words of an instruction (R48, R49, R55, R59). `SUM16` has none: no request selects it. -/
def encode : Instr → Option Words
  | .csum buf => some (requestWords 0 buf)
  | .decode buf => some (requestWords 1 buf)
  | .verify buf => some (requestWords 0 buf)
  | .sum16 _ _ => none
  | .hdrData buf => some (.header buf)
  | .hdrSyn buf => some (.header buf)
  | .decodeCommon buf => some (.header buf)
  | .decodeFlags raw => some (.header [raw])
  | .decodeSynext buf => some (.header buf)
  | .decodeNonsyn buf => some (.header buf)
  | .errTooShort => some (.status 1)
  | .errTooShortForCommon => some (.status 2)
  | .errTooShortForSyn => some (.status 3)

/-- The header shape of a buffer as an instruction; the empty buffer counts as SYN clear. -/
def shapeOf (buf : List Byte) : Instr :=
  if synBit buf = some true then .hdrSyn buf else .hdrData buf

/-- The instruction that owns the words of `i`: a `VERIFY` is a `CSUM` request (R49), the sub-operations of `DECODE` are matched
over the byte 0 that tells the shape. Every other instruction owns its own words. -/
def Instr.owner : Instr → Instr
  | .csum buf => .csum buf
  | .decode buf => .decode buf
  | .verify buf => .csum buf
  | .sum16 a b => .sum16 a b
  | .hdrData buf => .hdrData buf
  | .hdrSyn buf => .hdrSyn buf
  | .decodeCommon buf => shapeOf buf
  | .decodeFlags raw => shapeOf [raw]
  | .decodeSynext buf => .hdrSyn buf
  | .decodeNonsyn buf => .hdrData buf
  | .errTooShort => .errTooShort
  | .errTooShortForCommon => .errTooShortForCommon
  | .errTooShortForSyn => .errTooShortForSyn

/-! ## The table's numbering of a word -/

/-- The `op` of a word of the opcode table: bit 0, the one bit of the mask (R48; log 13). -/
def tableOp (w : Nat) : BitVec 1 := BitVec.ofNat 1 w

/-- The buffer of a word of the opcode table: the bytes after the one that holds `op` (log 13). -/
def tableBuf (nbits w : Nat) : List Byte :=
  (List.range (nbits / 8 - 1)).map fun k => BitVec.ofNat 8 (w >>> (8 * (k + 1)))

/-- What the decoder reads from a word of the opcode table presented as a request. -/
def decodeTableWord (nbits w : Nat) : Option Instr :=
  match decodeRequest { op := tableOp w, len := (tableBuf nbits w).length } (cellsOf (tableBuf nbits w)) with
  | .ok i => some i
  | .error _ => none

end Sys2Proof
end

