-- ==== Sys2Proof/Machine/State.lean ====
section
/-! DEFINITION. The state of the block: the host's buffer, the pending request, the operation-local registers, the response
(10_state.md). Everything is plain data. -/

namespace Sys2Proof.Machine

/-! ## What a response is made of -/

/-- `Flags(u8)`: byte 0 kept whole; its six one-bit views are functions of it (R25; Machine/Flags.lean). -/
structure Flags where
  raw : Byte
  deriving DecidableEq, Repr

/-- The common header (R24). -/
structure CommonHeader where
  flags : Flags
  headerLength : Byte
  sequenceNumber : Byte
  ackNumber : Byte
  deriving DecidableEq, Repr

/-- The SYN extension (R26). `chk` is a view of `synFlags`, not a field. -/
structure SynHeaderExtension where
  version : U4
  synFlags : U4
  maxOutstandingSegments : Byte
  maxSegmentSize : U16
  retransmissionTimeout : U16
  cumulativeAckTimeout : U16
  nullTimeout : U16
  maxRetransmissions : Byte
  maxCumulativeAck : Byte
  maxOutOfSequenceAck : Byte
  timeoutUnit : Byte
  connectionId : U32
  checksum : U16
  deriving DecidableEq, Repr

/-- The non-SYN header (R27). -/
structure NonSynHeader where
  checksum : U16
  deriving DecidableEq, Repr

/-- The two shapes of a decoded header (R23). -/
inductive Header where
  | data (common : CommonHeader) (ns : NonSynHeader)
  | syn (common : CommonHeader) (ext : SynHeaderExtension)
  deriving DecidableEq, Repr

/-- The errors of `DECODE` (R104). Each carries its name only. -/
inductive DecodeError where
  | tooShort
  | tooShortForCommon
  | tooShortForSyn
  deriving DecidableEq, Repr

/-- `Result<Header, DecodeError>` (R23): a field the response does not contain cannot be read (R28). -/
inductive DecodeResult where
  | ok (h : Header)
  | err (e : DecodeError)
  deriving DecidableEq, Repr

/-- The response of `CSUM` (R22): the checksum and the flag `csum_zero` (R21). -/
structure CsumResponse where
  csum : U16
  csumZero : Bool
  deriving DecidableEq, Repr

/-- A response of the block: of a `CSUM`, or of a `DECODE`. -/
inductive Response where
  | csum (r : CsumResponse)
  | decode (r : DecodeResult)
  deriving DecidableEq, Repr

/-! ## The state -/

/-- What lives inside one operation only. `none` is "no value", the spec's own condition outside an operation (R18, R19, R30). -/
structure Locals where
  /-- `ACC`, the checksum accumulator (R18). -/
  acc : Option U16
  /-- `CUR`, the byte cursor of `CSUM` (R19). -/
  cur : Option Nat
  /-- The unpacked flag byte of a `DECODE` in progress (R80; log 4). -/
  flags : Option Flags
  /-- `common` of R73's pseudocode (log 4). -/
  common : Option CommonHeader
  /-- `ext` of R73's pseudocode (log 4). -/
  ext : Option SynHeaderExtension
  /-- `ns` of R73's pseudocode (log 4). -/
  ns : Option NonSynHeader
  deriving DecidableEq, Repr

/-- No operation is in progress: no local has a value (R12, R30). -/
def Locals.empty : Locals :=
  { acc := none, cur := none, flags := none, common := none, ext := none, ns := none }

/-- The host's memory: (offset, byte) pairs, offsets strictly rising. An unlisted offset does not exist (R31; log 2). -/
abbrev Memory := List Host.Cell

/-- The one canonical form of a memory. -/
abbrev Memory.wf (m : Memory) : Prop := m.Pairwise fun x y => x.1 < y.1

/-- Everything the spec gives the machine (10_state.md sections 1 to 6). -/
structure State where
  /-- `buf`, the only memory the block reaches (R15, R31). The host's; the block never writes it (R42). -/
  mem : Memory
  /-- `op` and `len` of the request the host presents; `none` while the block is idle (R14, R117). -/
  request : Option Request
  /-- The operation-local registers and working values. -/
  locals : Locals
  /-- The response of the last transaction; `none` when there is none to read (R22, R23, R30). -/
  response : Option Response
  deriving DecidableEq, Repr

/-- Reset: idle, no request, no local and no response has a value (R30, R117). -/
def State.reset : State :=
  { mem := [], request := none, locals := Locals.empty, response := none }

/-! ## Stops -/

/-- Why the machine would stop. The block has no fault of its own (R112); neither of these is reached by any instruction. -/
inductive Fault where
  /-- Raised by a read of the buffer at an offset `>= len`, which does not exist (R31, R32). Safe: the model stops. -/
  | readPastEnd
  /-- Raised by a read of an operation-local register that holds no value (R18, R28, R30). Safe: the model stops. -/
  | localHasNoValue
  deriving DecidableEq, Repr

/-- Why the model gives no meaning. -/
inductive Refusal where
  /-- Raised by an arm of `exec` that has no meaning yet. Safe: nothing is claimed. -/
  | notModelled (mnemonic : String)
  /-- Raised by `step` on a launch that is not a request (R14; D10, U14: "refuse"). Safe: nothing is claimed. -/
  | notARequest (why : Reject)
  deriving DecidableEq, Repr

end Sys2Proof.Machine
end

