-- ==== Sys2Proof/Machine/Ops.lean ====
section
/-! DEFINITION. The named operations over the buffer, the operation-local registers and the response, raising an error, the
primitive `SUM16`, and what the host does between transactions. -/

namespace Sys2Proof.Machine

/-! ## The constants of R6 -/

/-- `COMMON_LEN`: bytes of the common header, the first gate of `DECODE`. -/
def commonLen : Nat := 4

/-- `DATA_MIN_LEN`: the gate when the SYN bit is clear. -/
def dataMinLen : Nat := 8

/-- `SYN_MIN_LEN`: the gate when the SYN bit is set. -/
def synMinLen : Nat := 22

/-- `ACC_INIT`: the accumulator at the start of every `CSUM`. -/
def accInit : U16 := 0x0000

/-! ## Arithmetic of the checksum -/

/-- `SUM16(a, b)`: the 17-bit sum with its carry folded back once (R61). -/
def sum16 (a b : U16) : U16 :=
  BitVec.ofNat 16 (((a.toNat + b.toNat) &&& 0xFFFF) + ((a.toNat + b.toNat) >>> 16))

/-- `not16(v) = 0xFFFF - v`, the source's `~v` (00_scope.md section 5). -/
def not16 (v : U16) : U16 := ~~~v

/-! ## Reading the buffer: `MemRead(addr, n)` for n = 1, 2, 4 (00_scope.md section 5; R35, R56) -/

/-- `B[o] | (B[o+1] << 8)`. -/
def le16 (b0 b1 : Byte) : U16 := b0.setWidth 16 ||| (b1.setWidth 16 <<< 8)

/-- `B[o] | (B[o+1] << 8) | (B[o+2] << 16) | (B[o+3] << 24)`. -/
def le32 (b0 b1 b2 b3 : Byte) : U32 :=
  b0.setWidth 32 ||| (b1.setWidth 32 <<< 8) ||| (b2.setWidth 32 <<< 16) ||| (b3.setWidth 32 <<< 24)

/-- `zext_16` of a byte: zeros above (R37). -/
def zext16 (b : Byte) : U16 := b.setWidth 16

/-- `MemRead(o, 1)`: defined only for `o < len` (R31). -/
def read8 (buf : List Byte) (o : Nat) : Except Fault Byte :=
  match buf[o]? with
  | some b => .ok b
  | none => .error .readPastEnd

/-- `MemRead(o, 2)`. -/
def read16 (buf : List Byte) (o : Nat) : Except Fault U16 := do
  let b0 ← read8 buf o
  let b1 ← read8 buf (o + 1)
  return le16 b0 b1

/-- `MemRead(o, 4)`. -/
def read32 (buf : List Byte) (o : Nat) : Except Fault U32 := do
  let b0 ← read8 buf o
  let b1 ← read8 buf (o + 1)
  let b2 ← read8 buf (o + 2)
  let b3 ← read8 buf (o + 3)
  return le32 b0 b1 b2 b3

/-! ## Operation-local registers -/

/-- A local that holds no value cannot be read. -/
def valueOf {α : Type} : Option α → Except Fault α
  | some v => .ok v
  | none => .error .localHasNoValue

/-- `ACC <- v` (R18). -/
def setAcc (v : U16) (s : State) : State := { s with locals := { s.locals with acc := some v } }

/-- `CUR <- n` (R19). -/
def setCur (n : Nat) (s : State) : State := { s with locals := { s.locals with cur := some n } }

/-- The flag byte of the `DECODE` in progress, unpacked. -/
def setFlags (f : Flags) (s : State) : State := { s with locals := { s.locals with flags := some f } }

/-- `common = ...` of R73. -/
def setCommon (c : CommonHeader) (s : State) : State := { s with locals := { s.locals with common := some c } }

/-- `ext = ...` of R73. -/
def setExt (x : SynHeaderExtension) (s : State) : State := { s with locals := { s.locals with ext := some x } }

/-- `ns = ...` of R73. -/
def setNs (n : NonSynHeader) (s : State) : State := { s with locals := { s.locals with ns := some n } }

/-! ## Ending an operation -/

/-- `return v`: the response is produced and no local outlives the operation (R12, R13). -/
def respond (r : Response) (s : State) : State :=
  { s with response := some r, locals := Locals.empty }

/-- `raise E`: taking an exception. The operation ends at once with `Err(E)` and nothing else; no state is saved, no mode
changes, no control is transferred (R110). There is nothing to return from (R111). -/
def raise (e : DecodeError) (s : State) : State := respond (.decode (.err e)) s

/-- The outcome of an operation whose reads may fault. -/
def settle (x : Except Fault State) : Host.Outcome State Fault Refusal :=
  match x with
  | .ok t => .next t
  | .error f => .fault f

/-- The request lives to the end of its transaction (10_state.md section 1, R128). -/
def endTransaction (s : State) : State := { s with request := none }

/-! ## The host's memory -/

/-- The byte at an offset; an unlisted offset does not exist. -/
def Memory.read : Memory → Nat → Option Byte
  | [], _ => none
  | (k, b) :: m, a => if k = a then some b else Memory.read m a

/-- A store by the host, which keeps the canonical form. The block has none (R42). -/
def Memory.write : Memory → Nat → Byte → Memory
  | [], a, v => [(a, v)]
  | (k, b) :: m, a, v =>
    if a < k then (a, v) :: (k, b) :: m
    else if a = k then (k, v) :: m
    else (k, b) :: Memory.write m a v

/-! ## What the host does between transactions (70_reset_and_hazards.md R120) -/

/-- The host presents a request: `op`, `buf`, and `len` the number of bytes of `buf` (R14). DESIGN CHOICE (log 15): presented while
another request is pending, which R128 leaves open, it replaces that one, and the first gets no response. -/
def present (op : BitVec 1) (buf : List Byte) (s : State) : State :=
  { s with mem := cellsOf buf, request := some { op := op, len := buf.length } }

/-- The host stores a byte into its own buffer (95_test_vectors.md P1). DESIGN CHOICE (log 14): a store while a request is pending,
which breaks the host's duty (R43, R120) and has no meaning in the spec (U14), is not prevented, and the step answers the memory
as it then stands. -/
def hostStore (a : Nat) (v : Byte) (s : State) : State := { s with mem := Memory.write s.mem a v }

/-- The host discards the response (R29). -/
def discardResponse (s : State) : State := { s with response := none }

/-- Reset at any time: idle, nothing pending, no response (R117; log 9). -/
def hardReset (_ : State) : State := State.reset

end Sys2Proof.Machine
end

