-- ==== Sys2Proof/Machine/Flags.lean ====
section
/-! DEFINITION. Every flag of the block: the six views of byte 0, CHK, `csum_zero`, and the coding of a response into `status`
and `variant`. No flag lives beyond the response it is part of (R21). -/

namespace Sys2Proof.Machine

/-- BUSY, mask 0x01 (R25, R51). -/
def Flags.busy (f : Flags) : Bool := f.raw.getLsbD 0

/-- NUL, mask 0x08. -/
def Flags.nul (f : Flags) : Bool := f.raw.getLsbD 3

/-- RST, mask 0x10. -/
def Flags.rst (f : Flags) : Bool := f.raw.getLsbD 4

/-- EAC, mask 0x20. -/
def Flags.eac (f : Flags) : Bool := f.raw.getLsbD 5

/-- ACK, mask 0x40. -/
def Flags.ack (f : Flags) : Bool := f.raw.getLsbD 6

/-- SYN, mask 0x80: the one bit that selects the header shape (R55). -/
def Flags.syn (f : Flags) : Bool := f.raw.getLsbD 7

/-- `FLAGS(raw)` (R80): the byte kept whole, with its views. -/
def flagsOf (raw : Byte) : Flags := { raw := raw }

/-- CHK, "checksum enabled": bit 2 of `syn_flags` (R87). -/
def SynHeaderExtension.chk (x : SynHeaderExtension) : Bool := x.synFlags.getLsbD 2

/-- The `CSUM` response for a checksum: `csum_zero = (csum = 0x0000)` (R21). -/
def csumResponse (c : U16) : CsumResponse := { csum := c, csumZero := c == 0x0000 }

/-- The code of an error (R59, R104). -/
def DecodeError.code : DecodeError → BitVec 2
  | .tooShort => 1
  | .tooShortForCommon => 2
  | .tooShortForSyn => 3

/-- `status`: 2 bits of a `DECODE` response; a `CSUM` response has none (R28, R59). -/
def Response.status : Response → Option (BitVec 2)
  | .csum _ => none
  | .decode (.ok _) => some 0
  | .decode (.err e) => some e.code

/-- `variant`: 1 bit, a value only when `status = 0` (R59). -/
def Response.variant : Response → Option (BitVec 1)
  | .csum _ => none
  | .decode (.ok (.data _ _)) => some 0
  | .decode (.ok (.syn _ _)) => some 1
  | .decode (.err _) => none

/-- `VERIFY`: the `CSUM` response read through `csum_zero`, `true` is pass (R69). -/
def State.verdict (s : State) : Option Bool :=
  match s.response with
  | some (.csum r) => some r.csumZero
  | some (.decode _) => none
  | none => none

end Sys2Proof.Machine
end

