-- ==== Sys2Proof/Machine/Checksum.lean ====
section
/-! DEFINITION. The checksum engine: `SUM16`, `CSUM`, `VERIFY` (40_checksum_engine.md), as R65's pseudocode over `ACC` and `CUR`. -/

namespace Sys2Proof.Machine

/-- `while CUR + 1 < len` of R65, at most `fuel` times round. -/
def csumWhile : Nat → List Byte → State → Except Fault State
  | 0, _, s => .ok s
  | fuel + 1, buf, s => do
    let cur ← valueOf s.locals.cur
    if cur + 1 < buf.length then
      let w ← read16 buf cur
      let acc ← valueOf s.locals.acc
      csumWhile fuel buf (setCur (cur + 2) (setAcc (sum16 acc w) s))
    else .ok s

/-- `if CUR < len` of R65: the odd last byte in the low lane (R37). -/
def csumTail (buf : List Byte) (s : State) : Except Fault State := do
  let cur ← valueOf s.locals.cur
  if cur < buf.length then
    let b ← read8 buf cur
    let acc ← valueOf s.locals.acc
    return setCur (cur + 1) (setAcc (sum16 acc (zext16 b)) s)
  else return s

/-- The whole of R65. The loop takes two bytes a turn, so `len` turns are more than enough. -/
def csumRun (buf : List Byte) (s : State) : Except Fault State := do
  let s1 ← csumWhile buf.length buf (setCur 0 (setAcc accInit s))
  let s2 ← csumTail buf s1
  let acc ← valueOf s2.locals.acc
  return respond (.csum (csumResponse (not16 acc))) s2

/-- `SUM16` (R61): the primitive by which `CSUM` updates the accumulator, `ACC <- SUM16(a, b)` (log 11). -/
def execSum16 (a b : U16) (s : State) : Host.Outcome State Fault Refusal :=
  .next (setAcc (sum16 a b) s)

/-- `CSUM` (R65). -/
def execCsum (buf : List Byte) (s : State) : Host.Outcome State Fault Refusal :=
  settle (csumRun buf s)

/-- `VERIFY` (R69): a `CSUM`; pass or fail is `State.verdict` of the state it leaves. -/
def execVerify (buf : List Byte) (s : State) : Host.Outcome State Fault Refusal :=
  settle (csumRun buf s)

end Sys2Proof.Machine
end

