-- ==== Sys2Proof/Machine/Errors.lean ====
section
/-! DEFINITION. The three error outcomes of `DECODE` (60_exceptions.md R104 to R107): each is the `raise` of its error (R110).
DESIGN CHOICE (log 16): performed by itself, an error row raises whether or not its cause holds; `DECODE` raises only on the cause. -/

namespace Sys2Proof.Machine

/-- `ERR.TooShort` (R105); by itself without the cause, log 16. -/
def execErrTooShort (s : State) : Host.Outcome State Fault Refusal := .next (raise .tooShort s)

/-- `ERR.TooShortForCommon` (R106); by itself without the cause, log 16. -/
def execErrTooShortForCommon (s : State) : Host.Outcome State Fault Refusal := .next (raise .tooShortForCommon s)

/-- `ERR.TooShortForSyn` (R107); by itself without the cause, log 16. -/
def execErrTooShortForSyn (s : State) : Host.Outcome State Fault Refusal := .next (raise .tooShortForSyn s)

end Sys2Proof.Machine
end

