-- ==== Sys2Proof/Machine/Operands.lean ====
section
/-! DEFINITION. Assembly of header fields from buffer bytes (30_encoding.md R56, 41_header_decoder.md R79, 42_header_variants.md). -/

namespace Sys2Proof.Machine

/-- `B[o][7:4]` (R56 (d), R85). -/
def highNibble (b : Byte) : U4 := b.extractLsb' 4 4

/-- `B[o][3:0]` (R56 (d), R86). -/
def lowNibble (b : Byte) : U4 := b.extractLsb' 0 4

/-- Bytes 1 to 3 of the common header beside the unpacked flag byte (R79). -/
def commonHeader (f : Flags) (buf : List Byte) : Except Fault CommonHeader := do
  let headerLength ← read8 buf 1
  let sequenceNumber ← read8 buf 2
  let ackNumber ← read8 buf 3
  return { flags := f, headerLength := headerLength, sequenceNumber := sequenceNumber, ackNumber := ackNumber }

/-- `SYNEXT(B)` (R84), one line a field (R85 to R98). -/
def synExtension (buf : List Byte) : Except Fault SynHeaderExtension := do
  let b4 ← read8 buf 4
  let maxOutstandingSegments ← read8 buf 5
  let maxSegmentSize ← read16 buf 6
  let retransmissionTimeout ← read16 buf 8
  let cumulativeAckTimeout ← read16 buf 10
  let nullTimeout ← read16 buf 12
  let maxRetransmissions ← read8 buf 14
  let maxCumulativeAck ← read8 buf 15
  let maxOutOfSequenceAck ← read8 buf 16
  let timeoutUnit ← read8 buf 17
  let connectionId ← read32 buf 18
  let checksum ← read16 buf 20
  return {
    version := highNibble b4
    synFlags := lowNibble b4
    maxOutstandingSegments := maxOutstandingSegments
    maxSegmentSize := maxSegmentSize
    retransmissionTimeout := retransmissionTimeout
    cumulativeAckTimeout := cumulativeAckTimeout
    nullTimeout := nullTimeout
    maxRetransmissions := maxRetransmissions
    maxCumulativeAck := maxCumulativeAck
    maxOutOfSequenceAck := maxOutOfSequenceAck
    timeoutUnit := timeoutUnit
    connectionId := connectionId
    checksum := checksum }

/-- `NONSYN(B)` (R101, R103). Bytes 4 and 5 are not read (R102). -/
def nonSynHeader (buf : List Byte) : Except Fault NonSynHeader := do
  let checksum ← read16 buf 6
  return { checksum := checksum }

end Sys2Proof.Machine
end

