-- ==== Sys2Proof/Machine/Header.lean ====
section
/-! DEFINITION. The header decoder: `DECODE`, its two header variants and its four sub-operations (41_header_decoder.md,
42_header_variants.md), as R73's pseudocode. -/

namespace Sys2Proof.Machine

/-! ## The steps of R73 -/

/-- Step 1: read byte 0, unpack it, extract the common header (R79, R80). -/
def commonStep (buf : List Byte) (s : State) : Except Fault State := do
  let raw ← read8 buf 0
  let s1 := setFlags (flagsOf raw) s
  let f ← valueOf s1.locals.flags
  let c ← commonHeader f buf
  return setCommon c s1

/-- `ext = SYNEXT(B)` (R84). -/
def extractExt (buf : List Byte) (s : State) : Except Fault State := do
  let x ← synExtension buf
  return setExt x s

/-- `ns = NONSYN(B)` (R101). -/
def extractNs (buf : List Byte) (s : State) : Except Fault State := do
  let n ← nonSynHeader buf
  return setNs n s

/-- `return Ok(Syn(common, ext))`. -/
def returnSyn (s : State) : Except Fault State := do
  let c ← valueOf s.locals.common
  let x ← valueOf s.locals.ext
  return respond (.decode (.ok (.syn c x))) s

/-- `return Ok(Data(common, ns))`. -/
def returnData (s : State) : Except Fault State := do
  let c ← valueOf s.locals.common
  let n ← valueOf s.locals.ns
  return respond (.decode (.ok (.data c n))) s

/-- The gate of the SYN shape (R75, R83): `raise TooShortForSyn`, or go on. -/
def synGate (buf : List Byte) (s : State) (go : Except Fault State) : Except Fault State :=
  if buf.length < synMinLen then .ok (raise .tooShortForSyn s) else go

/-- The gate of the other shape (R75, R100): `raise TooShortForCommon`, or go on. -/
def dataGate (buf : List Byte) (s : State) (go : Except Fault State) : Except Fault State :=
  if buf.length < dataMinLen then .ok (raise .tooShortForCommon s) else go

/-- The SYN branch of R73, after step 1. -/
def synBranch (buf : List Byte) (s : State) : Except Fault State :=
  synGate buf s (do returnSyn (← extractExt buf s))

/-- The other branch of R73, after step 1. -/
def dataBranch (buf : List Byte) (s : State) : Except Fault State :=
  dataGate buf s (do returnData (← extractNs buf s))

/-- R73 whole: the first gate, step 1, the SYN test, the branch. -/
def decodeRun (buf : List Byte) (s : State) : Except Fault State :=
  if buf.length < commonLen then .ok (raise .tooShort s)
  else do
    let s1 ← commonStep buf s
    let f ← valueOf s1.locals.flags
    if f.syn then synBranch buf s1 else dataBranch buf s1

/-- A step that belongs to the shape with SYN bit `want`: the first gate comes before it (R74); on a buffer of the other shape it
does not run, and nothing changes (R55, R83, R100; log 10). -/
def guarded (want : Bool) (body : List Byte → State → Except Fault State) (buf : List Byte) (s : State) : Except Fault State :=
  if buf.length < commonLen then .ok (raise .tooShort s)
  else do
    let raw ← read8 buf 0
    if (flagsOf raw).syn = want then body buf s else return s

/-! ## The meanings -/

/-- `DECODE` (R73). -/
def execDecode (buf : List Byte) (s : State) : Host.Outcome State Fault Refusal :=
  settle (decodeRun buf s)

/-- `DECODE.COMMON` (R79), behind the first gate (R74). -/
def execDecodeCommon (buf : List Byte) (s : State) : Host.Outcome State Fault Refusal :=
  settle (if buf.length < commonLen then .ok (raise .tooShort s) else commonStep buf s)

/-- `DECODE.FLAGS` (R80). -/
def execDecodeFlags (raw : Byte) (s : State) : Host.Outcome State Fault Refusal :=
  .next (setFlags (flagsOf raw) s)

/-- `DECODE.SYNEXT` (R83, R84). -/
def execDecodeSynext (buf : List Byte) (s : State) : Host.Outcome State Fault Refusal :=
  settle (guarded true (fun b t => synGate b t (extractExt b t)) buf s)

/-- `DECODE.NONSYN` (R100, R101). -/
def execDecodeNonsyn (buf : List Byte) (s : State) : Host.Outcome State Fault Refusal :=
  settle (guarded false (fun b t => dataGate b t (extractNs b t)) buf s)

/-- `HDR.SYN`: a segment of the SYN shape, whole (R53, R55, R83). -/
def execHdrSyn (buf : List Byte) (s : State) : Host.Outcome State Fault Refusal :=
  settle (guarded true (fun b t => do synBranch b (← commonStep b t)) buf s)

/-- `HDR.DATA`: a segment of the other shape, whole (R52, R55, R100). -/
def execHdrData (buf : List Byte) (s : State) : Host.Outcome State Fault Refusal :=
  settle (guarded false (fun b t => do dataBranch b (← commonStep b t)) buf s)

end Sys2Proof.Machine
end

