-- ==== Sys2Proof/Machine/Dispatch.lean ====
section
/-! DEFINITION. One arm per row of spec/opcode_table.json. -/

namespace Sys2Proof.Machine

def exec (i : Instr) (s : State) : Host.Outcome State Fault Refusal :=
  match i with
  | .csum buf => Sys2Proof.Machine.execCsum buf s
  | .decode buf => Sys2Proof.Machine.execDecode buf s
  | .verify buf => Sys2Proof.Machine.execVerify buf s
  | .sum16 a b => Sys2Proof.Machine.execSum16 a b s
  | .hdrData buf => Sys2Proof.Machine.execHdrData buf s
  | .hdrSyn buf => Sys2Proof.Machine.execHdrSyn buf s
  | .decodeCommon buf => Sys2Proof.Machine.execDecodeCommon buf s
  | .decodeFlags raw => Sys2Proof.Machine.execDecodeFlags raw s
  | .decodeSynext buf => Sys2Proof.Machine.execDecodeSynext buf s
  | .decodeNonsyn buf => Sys2Proof.Machine.execDecodeNonsyn buf s
  | .errTooShort => Sys2Proof.Machine.execErrTooShort s
  | .errTooShortForCommon => Sys2Proof.Machine.execErrTooShortForCommon s
  | .errTooShortForSyn => Sys2Proof.Machine.execErrTooShortForSyn s

end Sys2Proof.Machine
end

