-- ==== Sys2Proof/Machine/Step.lean ====
section
/-! DEFINITION. One step: one whole transaction (10_state.md R13), or waiting while no request is pending (R20). -/

namespace Sys2Proof.Machine

/-- An idle block waits. A pending request is decoded and performed, and the request ends with its transaction. A launch that is
no request is refused by name (R14, D10, U14). -/
def step (s : State) : Host.Outcome State Fault Refusal :=
  match s.request with
  | none => .next s
  | some r =>
    match decodeRequest r s.mem with
    | .error why => .refused (.notARequest why)
    | .ok i =>
      match exec i s with
      | .next t => .next (endTransaction t)
      | .fault f => .fault f
      | .refused q => .refused q

/-- The host presents the request that a word of the opcode table stands for (log 13). -/
def State.withFetchWord (s : State) (nbits w : Nat) : State :=
  present (tableOp w) (tableBuf nbits w) s

end Sys2Proof.Machine
end

