-- ==== Sys2Proof/Safety.lean ====
section
/-! DEFINITION. What a safe run is, and the spec's own yardsticks, in the terms the statements use: the word sequence `W(buf)`
(R64), `rep` (R63), and the invariant of the machine between transactions. Nothing here is used by the machine. -/

namespace Sys2Proof.Machine

/-! ## The yardsticks of the checksum rules -/

/-- `B[2k] + 256 * B[2k+1]` (R36). -/
def wholeWord (buf : List Byte) (k : Nat) : Nat :=
  (buf.getD (2 * k) 0).toNat + 256 * (buf.getD (2 * k + 1) 0).toNat

/-- The odd last byte as a word of its own, in the low lane (R37). -/
def tailWord (buf : List Byte) : List Nat :=
  if buf.length % 2 = 1 then [(buf.getD (buf.length - 1) 0).toNat] else []

/-- `W(buf)`: the `floor(len/2)` whole words in offset order, then the odd last byte (R64). -/
def wordsOf (buf : List Byte) : List Nat :=
  (List.range (buf.length / 2)).map (wholeWord buf) ++ tailWord buf

/-- `S`: the ordinary sum of the words (R66). -/
def wordSum (buf : List Byte) : Nat := (wordsOf buf).sum

/-- `rep(n)` of R63: 0 for 0, otherwise the representative of `n` modulo 0xFFFF in `1 .. 0xFFFF`. -/
def rep (n : Nat) : Nat := if n = 0 then 0 else (n - 1) % 0xFFFF + 1

/-- The accumulator after the words of a list, one at a time from 0x0000 (R65). -/
def accumulate (ws : List Nat) : U16 := ws.foldl (fun acc w => sum16 acc (BitVec.ofNat 16 w)) 0x0000

/-- `CSUM buf` answers `c` with its flag `csum_zero`, from every state, and changes nothing else of the state between operations. -/
def CsumAnswers (buf : List Byte) (c : U16) : Prop :=
  ∀ s, exec (.csum buf) s =
    .next { s with response := some (.csum { csum := c, csumZero := c == 0x0000 }), locals := Locals.empty }

/-- Writing a 16-bit value into a little-endian field at offset `o`: the host's part of sealing (R70). -/
def sealAt (buf : List Byte) (o : Nat) (c : U16) : List Byte :=
  (buf.set o (c.extractLsb' 0 8)).set (o + 1) (c.extractLsb' 8 8)

/-! ## Safe runs -/

/-- What every response the block produces satisfies: `csum_zero` says whether `csum` is zero (R21), the variant agrees with the
SYN bit (R75), and `checksum` is the upper half of `connection_id` (R99). -/
def Response.consistent : Response → Bool
  | .csum r => r.csumZero == (r.csum == 0x0000)
  | .decode (.ok (.data c _)) => !c.flags.syn
  | .decode (.ok (.syn c x)) => c.flags.syn && x.checksum == x.connectionId.extractLsb' 16 16
  | .decode (.err _) => true

/-- Between transactions: the host's memory is in canonical form, no operation-local register holds a value (R12), and the
response, if there is one, is consistent. -/
abbrev State.Inv (s : State) : Prop :=
  Memory.wf s.mem ∧ s.locals = Locals.empty ∧ s.response.all Response.consistent = true

/-- A step is safe when the machine goes on. -/
def SafeStep (s : State) : Prop := ∃ t, step s = .next t

end Sys2Proof.Machine
end

