-- ==== Sys2Proof/Certificates/Slice0/Obligations.lean ====
section
/-! DEFINITION. The statements for the provers, from the numbered rules of the spec. Where a clause rests on a choice of the model
(where a sub-operation leaves its result, what it does on a buffer it is not meant for), the docstring names the log entry; where it
rests on a rule that the spec marks as its own decision D<n> or as derived from other rules, the docstring says that. -/

open Sys2Proof Sys2Proof.Machine

/-! ## Encoding -/

/-- R48: `op = 0` is `CSUM`, `op = 1` is `DECODE`, on every buffer; no request encoding is reserved or illegal.
The code values are the spec's own decision (D4: "the code values are this spec's own"). -/
def Obligations.RequestOpSelectsOperation : Prop :=
  ∀ buf : List Byte,
    decodeRequest { op := 0, len := buf.length } (cellsOf buf) = .ok (.csum buf) ∧
    decodeRequest { op := 1, len := buf.length } (cellsOf buf) = .ok (.decode buf)

/-- R48, R49, R55, R59: decoding the words of a well-formed instruction gives the instruction that owns them, which is the
instruction itself for both operations, both header variants and the three error outcomes. -/
def Obligations.DecodeOfEncodeIsOwner : Prop :=
  (∀ (i : Instr) (w : Words), i.wf = true → encode i = some w → decodeWords w = .ok i.owner) ∧
  (∀ buf : List Byte, (Instr.csum buf).owner = .csum buf ∧ (Instr.decode buf).owner = .decode buf ∧
    (Instr.verify buf).owner = .csum buf ∧ (Instr.hdrData buf).owner = .hdrData buf ∧ (Instr.hdrSyn buf).owner = .hdrSyn buf) ∧
  (Instr.errTooShort.owner = .errTooShort ∧ Instr.errTooShortForCommon.owner = .errTooShortForCommon ∧
    Instr.errTooShortForSyn.owner = .errTooShortForSyn) ∧
  (∀ a b : U16, encode (.sum16 a b) = none)

/-- The other direction: words that decode are the words of what they decode to, so each word has one meaning; and what a request
decodes to is well-formed. -/
def Obligations.EncodeOfDecodeIsTheWords : Prop :=
  ∀ (w : Words) (i : Instr), decodeWords w = .ok i →
    encode i = some w ∧ i.owner = i ∧ ((∃ r cells, w = .request r cells) → i.wf = true)

/-- R14 with D10 and U14 (the refusal is the model's, log 7): a launch whose memory is not the buffer of `len` bytes is refused. -/
def Obligations.LaunchThatIsNoRequestIsRefused : Prop :=
  ∀ (s : State) (r : Request), s.request = some r →
    (∀ buf : List Byte, s.mem = cellsOf buf → r.len ≠ buf.length) →
    ∃ why, step s = .refused (.notARequest why)

/-- Words written out from the encodings of R48, R55 and R59. The operation codes are the spec's own decision D4 and the status codes
its own decision D6; the word spaces are the model's (log 13). -/
def Obligations.WrittenOutWordsDecode : Prop :=
  decodeWords (.request { op := 0#1, len := 1 } [(0, 0x34)]) = .ok (.csum [0x34]) ∧
  decodeWords (.request { op := 1#1, len := 3 } [(0, 0x80), (1, 0x10), (2, 0x05)]) = .ok (.decode [0x80, 0x10, 0x05]) ∧
  decodeWords (.header [0b10000000]) = .ok (.hdrSyn [0x80]) ∧
  decodeWords (.header [0b01111111]) = .ok (.hdrData [0x7F]) ∧
  decodeWords (.status 0b01#2) = .ok .errTooShort ∧
  decodeWords (.status 0b10#2) = .ok .errTooShortForCommon ∧
  decodeWords (.status 0b11#2) = .ok .errTooShortForSyn ∧
  decodeWords (.status 0b00#2) = .error .statusIsOk

/-- R59, whose numbers are the spec's own decision (D6: "the numbers are this spec's own"): `status` of the five `DECODE` responses,
`variant` of the two `Ok` responses and no `variant` after an `Err` (the spec's own decision D7), neither of the two after a `CSUM`,
and in every `Ok` response `variant` equals `flags.syn`. -/
def Obligations.ResponseCodes : Prop :=
  (∀ c n, Response.status (.decode (.ok (.data c n))) = some 0 ∧ Response.variant (.decode (.ok (.data c n))) = some 0) ∧
  (∀ c x, Response.status (.decode (.ok (.syn c x))) = some 0 ∧ Response.variant (.decode (.ok (.syn c x))) = some 1) ∧
  (Response.status (.decode (.err .tooShort)) = some 1 ∧ Response.status (.decode (.err .tooShortForCommon)) = some 2 ∧
    Response.status (.decode (.err .tooShortForSyn)) = some 3) ∧
  (∀ e, Response.variant (.decode (.err e)) = none) ∧
  (∀ r, Response.status (.csum r) = none ∧ Response.variant (.csum r) = none) ∧
  (∀ (buf : List Byte) (s t : State) (c : CommonHeader), exec (.decode buf) s = .next t →
    ((∃ n, t.response = some (.decode (.ok (.data c n)))) → ∀ r ∈ t.response, r.variant = some (BitVec.ofBool c.flags.syn)) ∧
    ((∃ x, t.response = some (.decode (.ok (.syn c x)))) → ∀ r ∈ t.response, r.variant = some (BitVec.ofBool c.flags.syn)))

/-! ## The step and the whole machine -/

/-- A pending request that decodes is performed, and the request ends with its transaction (R13, 10_state.md section 1). -/
def Obligations.StepPerformsDecodedInstruction : Prop :=
  ∀ (s t : State) (r : Request) (i : Instr), s.request = some r → decodeRequest r s.mem = .ok i → exec i s = .next t →
    step s = .next { t with request := none }

/-- R20: with no request pending the block waits (log 12). -/
def Obligations.IdleBlockWaits : Prop :=
  ∀ s : State, s.request = none → step s = .next s

/-- R112: every possible request is answered. One step from any state in which the host presents one gives a state that is idle, in
which no operation-local register holds a value, the host's buffer is as it was and the response is there. -/
def Obligations.EveryRequestIsAnswered : Prop :=
  ∀ (op : BitVec 1) (buf : List Byte) (s : State), ∃ r : Response,
    step (present op buf s) =
      .next { mem := cellsOf buf, request := none, locals := Locals.empty, response := some r }

/-- R112, R32: no instruction of the table faults or is refused, whatever its operands and the state. A read past the end of the
buffer would fault, so there is none. -/
def Obligations.NoInstructionStops : Prop :=
  ∀ (i : Instr) (s : State), ∃ t, exec i s = .next t

/-- R12: a transaction depends on its request alone, never on an earlier response or on anything left in the block. -/
def Obligations.TransactionDependsOnRequestAlone : Prop :=
  ∀ s1 s2 : State, s1.mem = s2.mem → s1.request = s2.request → s1.request ≠ none → step s1 = step s2

/-- R111: after any transaction, an error among them, the block answers the next request as it would have without it, and as it
would right after reset. -/
def Obligations.NothingIsRemembered : Prop :=
  ∀ (op op' : BitVec 1) (buf buf' : List Byte) (s t : State), step (present op buf s) = .next t →
    step (present op' buf' t) = step (present op' buf' s) ∧
    step (present op' buf' t) = step (present op' buf' State.reset)

/-- R42: the block performs no store of any kind, in any instruction and any step. -/
def Obligations.BlockStoresNothing : Prop :=
  (∀ (i : Instr) (s t : State), exec i s = .next t → ∀ a, Memory.read t.mem a = Memory.read s.mem a) ∧
  (∀ s t : State, step s = .next t → t.mem = s.mem ∧ ∀ a, Memory.read t.mem a = Memory.read s.mem a)

/-- The frame of every instruction: the host's memory and the pending request are unchanged, and the response is unchanged or it
is a new one, with which no operation-local register keeps a value (R12, R29). -/
def Obligations.EveryInstructionFrame : Prop :=
  ∀ (i : Instr) (s t : State), exec i s = .next t →
    t.mem = s.mem ∧ t.request = s.request ∧
    (t.response = s.response ∨ (∃ r, t = { s with response := some r, locals := Locals.empty }))

/-- The invariant between transactions is kept by every step from every state that meets it: canonical memory, no local with a
value (R12), `csum_zero` says whether `csum` is zero (R21), the variant agrees with the SYN bit (R75), `checksum` is the upper
half of `connection_id` (R99). -/
def Obligations.StepKeepsInvariant : Prop :=
  ∀ s t : State, s.Inv → step s = .next t → t.Inv

/-- The invariant holds at reset. -/
def Obligations.InvariantHoldsAtReset : Prop := State.reset.Inv

/-- R117, the spec's own decision (D8: "The source describes no reset; this rule is the spec's own"); reset as an act of the host
between steps is the model's choice (log 9). Reset at any time leaves the block idle with no response, a request that was pending
gets none, and the first request after reset is answered as any other. -/
def Obligations.ResetIsIdleAndForgets : Prop :=
  (∀ s : State, (hardReset s).request = none ∧ (hardReset s).response = none ∧ (hardReset s).locals = Locals.empty) ∧
  (∀ s : State, step (hardReset s) = .next (hardReset s)) ∧
  (∀ (op : BitVec 1) (buf : List Byte) (s : State), step (present op buf (hardReset s)) = step (present op buf s))

/-- R30, the spec's own decision (D8): after reset no operation-local register and no response has a value, and no request is pending
(log 1, log 3, log 5: how the model holds "no value"). -/
def Obligations.ResetGivesNoValues : Prop :=
  State.reset.locals.acc = none ∧ State.reset.locals.cur = none ∧ State.reset.request = none ∧ State.reset.response = none ∧
  ∀ a, Memory.read State.reset.mem a = none

/-! ## SUM16 -/

/-- R61: the value of `SUM16` is the single fold of the 17-bit sum, as natural numbers: nothing is lost to its 16 bits. -/
def Obligations.Sum16IsSingleFold : Prop :=
  ∀ a b : U16, (sum16 a b).toNat = ((a.toNat + b.toNat) &&& 0xFFFF) + ((a.toNat + b.toNat) >>> 16)

/-- R62 and R63 (a) to (h), which the spec derives from R61: the fold never exceeds 16 bits, a second fold changes nothing, and the
arithmetic laws. -/
def Obligations.Sum16Laws : Prop :=
  (∀ a b : U16, ((a.toNat + b.toNat) &&& 0xFFFF) + ((a.toNat + b.toNat) >>> 16) ≤ 0xFFFF ∧
    ((sum16 a b).toNat &&& 0xFFFF) + ((sum16 a b).toNat >>> 16) = (sum16 a b).toNat) ∧
  (∀ a b : U16, (sum16 a b).toNat = rep (a.toNat + b.toNat) ∧
    (sum16 a b).toNat = if a.toNat + b.toNat ≤ 0xFFFF then a.toNat + b.toNat else a.toNat + b.toNat - 0xFFFF) ∧
  (∀ a b : U16, sum16 a b = sum16 b a) ∧
  (∀ a b c : U16, sum16 (sum16 a b) c = sum16 a (sum16 b c) ∧
    (sum16 a (sum16 b c)).toNat = rep (a.toNat + b.toNat + c.toNat)) ∧
  (∀ a : U16, sum16 a 0x0000 = a) ∧
  (∀ a : U16, (a ≠ 0x0000 → sum16 a 0xFFFF = a) ∧ sum16 0x0000 0xFFFF = 0xFFFF) ∧
  (∀ a b : U16, sum16 a b = 0x0000 ↔ a = 0x0000 ∧ b = 0x0000) ∧
  (∀ a : U16, sum16 a (not16 a) = 0xFFFF) ∧
  sum16 0xFFFF 0xFFFF = 0xFFFF

/-- `SUM16` completes for all operands from every state and changes the accumulator only, to the fold of the sum. That the result
of a lone `SUM16` is left in `ACC` is the model's choice (log 11). -/
def Obligations.Sum16Completes : Prop :=
  ∀ (a b : U16) (s : State), ∃ v : U16,
    exec (.sum16 a b) s = .next { s with locals := { s.locals with acc := some v } } ∧
    v.toNat = ((a.toNat + b.toNat) &&& 0xFFFF) + ((a.toNat + b.toNat) >>> 16)

/-! ## CSUM and VERIFY -/

/-- R65, with R64's word sequence: the loop over `ACC` and `CUR` answers the complement of the fold of `SUM16` over `W(buf)`, from
0x0000, with `csum_zero`, for every buffer and state; nothing else changes and no register keeps a value. -/
def Obligations.CsumLoopIsFoldOverWords : Prop :=
  ∀ (buf : List Byte) (s : State), ∃ r : CsumResponse,
    exec (.csum buf) s = .next { s with response := some (.csum r), locals := Locals.empty } ∧
    r.csum = ~~~((wordsOf buf).foldl (fun acc w => sum16 acc (BitVec.ofNat 16 w)) 0x0000) ∧
    (r.csumZero = true ↔ r.csum = 0x0000)

/-- R18, R19: the loop of R65 ends with `CUR = len` and with `ACC` the fold of `SUM16` over `W(buf)`, whatever the two registers held
before; and the operation leaves neither with a value. -/
def Obligations.CsumRegistersAtTheEndOfTheLoop : Prop :=
  ∀ (buf : List Byte) (s : State), ∃ s1 s2 t,
    csumWhile buf.length buf (setCur 0 (setAcc accInit s)) = .ok s1 ∧ csumTail buf s1 = .ok s2 ∧
    s2.locals.cur = some buf.length ∧ s2.locals.acc = some (accumulate (wordsOf buf)) ∧
    exec (.csum buf) s = .next t ∧ t.locals.acc = none ∧ t.locals.cur = none

/-- R66, which the spec derives from R65 and R63: the closed form of `CSUM` for every buffer, its consequences (a), (b), (c), and (d) the accumulator after any number of
words is the representative of their ordinary sum, so no carry is ever lost. -/
def Obligations.CsumClosedForm : Prop :=
  ∀ buf : List Byte, ∃ c : U16, CsumAnswers buf c ∧
    c.toNat = 0xFFFF - rep (wordSum buf) ∧
    (wordSum buf = 0 → c = 0xFFFF) ∧
    (0 < wordSum buf → c.toNat = 0xFFFE - (wordSum buf - 1) % 0xFFFF) ∧
    (c = 0xFFFF ↔ wordSum buf = 0) ∧ (wordSum buf = 0 ↔ ∀ b ∈ buf, b = 0x00) ∧
    (c = 0x0000 ↔ 0 < wordSum buf ∧ 0xFFFF ∣ wordSum buf) ∧
    (∀ buf' : List Byte, List.Perm (wordsOf buf) (wordsOf buf') ∨ wordSum buf = wordSum buf' → CsumAnswers buf' c) ∧
    (∀ n : Nat, (accumulate ((wordsOf buf).take n)).toNat = rep ((wordsOf buf).take n).sum)

/-- R67 (a) to (g), which the spec derives from R65 and R66. -/
def Obligations.CsumCornerCases : Prop :=
  CsumAnswers [] 0xFFFF ∧
  (∀ x : Byte, ∃ c : U16, CsumAnswers [x] c ∧ c.toNat = 0xFFFF - x.toNat ∧ c.extractLsb' 8 8 = 0xFF) ∧
  (∀ n : Nat, CsumAnswers (List.replicate n 0x00) 0xFFFF) ∧
  (∀ (buf : List Byte) (n : Nat), ∃ c : U16, CsumAnswers buf c ∧ CsumAnswers (buf ++ List.replicate n 0x00) c) ∧
  (∀ (buf : List Byte) (x y : Byte), buf.length % 2 = 0 →
    wordsOf (buf ++ [x]) = wordsOf buf ++ [x.toNat] ∧
    wordsOf (buf ++ [x] ++ [y]) = wordsOf buf ++ [(x.setWidth 16 ||| (y.setWidth 16 <<< 8) : U16).toNat]) ∧
  CsumAnswers [0xFF, 0xFF] 0x0000 ∧ CsumAnswers [0xFF, 0xFF, 0xFF, 0xFF] 0x0000 ∧
  CsumAnswers [0x34, 0x00] 0xFFCB ∧ CsumAnswers [0x00, 0x34] 0xCBFF

/-- R69: `VERIFY` is `CSUM` read through `csum_zero`: same outcome from every state, verdict `csum_zero`, which is pass exactly when
the word sum is positive and a multiple of 0xFFFF. -/
def Obligations.VerifyIsCsumReadThroughZero : Prop :=
  ∀ (buf : List Byte) (s : State), ∃ (t : State) (r : CsumResponse),
    exec (.verify buf) s = .next t ∧ exec (.csum buf) s = .next t ∧
    t = { s with response := some (.csum r), locals := Locals.empty } ∧
    t.verdict = some r.csumZero ∧
    (r.csumZero = true ↔ 0 < wordSum buf ∧ 0xFFFF ∣ wordSum buf)

/-- R70: writing the checksum of a buffer with a zeroed field at an even offset into that field gives a buffer whose checksum is
zero. That at an odd offset it need not is the spec's own part of R70 ("It does not hold for a field at an odd offset"). -/
def Obligations.SealedBufferVerifies : Prop :=
  (∀ (buf : List Byte) (o : Nat), o % 2 = 0 → o + 1 < buf.length → buf[o]? = some 0x00 → buf[o + 1]? = some 0x00 →
    ∃ c : U16, CsumAnswers buf c ∧ CsumAnswers (sealAt buf o c) 0x0000) ∧
  (∃ (buf : List Byte) (o : Nat) (c : U16), o % 2 = 1 ∧ o + 1 < buf.length ∧ buf[o]? = some 0x00 ∧ buf[o + 1]? = some 0x00 ∧
    CsumAnswers buf c ∧ ¬ CsumAnswers (sealAt buf o c) 0x0000)

/-- R72, which the spec derives from R66: a change that leaves `rep(S)` unchanged is not seen by `VERIFY`, and such changes exist: two different buffers of the same
length both pass. -/
def Obligations.VerifyDoesNotSeeEqualSums : Prop :=
  (∀ (buf buf' : List Byte) (s : State), rep (wordSum buf) = rep (wordSum buf') →
    exec (.verify buf) s = exec (.verify buf') s) ∧
  (∃ buf buf' : List Byte, buf ≠ buf' ∧ buf.length = buf'.length ∧ ∀ s : State, ∃ t t',
    exec (.verify buf) s = .next t ∧ t.verdict = some true ∧ exec (.verify buf') s = .next t' ∧ t'.verdict = some true)

/-- From R70 with R98, R103 and, as the spec derives them, R99 and R123: a sealed header of either shape verifies, `DECODE` returns the sealing checksum, and in a SYN header
it is the upper half of `connection_id` as well. -/
def Obligations.SealedHeaderVerifiesAndDecodes : Prop :=
  (∀ (buf : List Byte) (s : State), synBit buf = some false → 8 ≤ buf.length → buf[6]? = some 0x00 → buf[7]? = some 0x00 →
    ∃ (c : U16) (h : CommonHeader) (n : NonSynHeader), CsumAnswers buf c ∧ CsumAnswers (sealAt buf 6 c) 0x0000 ∧
    exec (.decode (sealAt buf 6 c)) s =
      .next { s with response := some (.decode (.ok (.data h n))), locals := Locals.empty } ∧ n.checksum = c) ∧
  (∀ (buf : List Byte) (s : State), synBit buf = some true → 22 ≤ buf.length → buf[20]? = some 0x00 → buf[21]? = some 0x00 →
    ∃ (c : U16) (h : CommonHeader) (x : SynHeaderExtension), CsumAnswers buf c ∧ CsumAnswers (sealAt buf 20 c) 0x0000 ∧
    exec (.decode (sealAt buf 20 c)) s =
      .next { s with response := some (.decode (.ok (.syn h x))), locals := Locals.empty } ∧
      x.checksum = c ∧ x.connectionId.extractLsb' 16 16 = c)

/-! ## DECODE -/

/-- R74, R75, R57 (R76 is the table the spec derives): every buffer gets exactly one of the five responses, by its length and bit 7 of
byte 0 alone; nothing else of the state changes, and the variant agrees with the SYN bit of the header returned. -/
def Obligations.DecodeOutcomeTable : Prop :=
  ∀ (buf : List Byte) (s : State),
    (buf.length < 4 →
      exec (.decode buf) s = .next { s with response := some (.decode (.err .tooShort)), locals := Locals.empty }) ∧
    (4 ≤ buf.length → buf.length ≤ 7 → synBit buf = some false →
      exec (.decode buf) s = .next { s with response := some (.decode (.err .tooShortForCommon)), locals := Locals.empty }) ∧
    (8 ≤ buf.length → synBit buf = some false → ∃ c n, c.flags.syn = false ∧
      exec (.decode buf) s = .next { s with response := some (.decode (.ok (.data c n))), locals := Locals.empty }) ∧
    (4 ≤ buf.length → buf.length ≤ 21 → synBit buf = some true →
      exec (.decode buf) s = .next { s with response := some (.decode (.err .tooShortForSyn)), locals := Locals.empty }) ∧
    (22 ≤ buf.length → synBit buf = some true → ∃ c x, c.flags.syn = true ∧
      exec (.decode buf) s = .next { s with response := some (.decode (.ok (.syn c x))), locals := Locals.empty })

/-- R80: the flag byte is kept whole and each view is its bit. -/
def Obligations.FlagViewsAreBits : Prop :=
  ∀ raw : Byte, (flagsOf raw).raw = raw ∧
    ((flagsOf raw).busy = true ↔ raw &&& 0x01 ≠ 0) ∧ ((flagsOf raw).nul = true ↔ raw &&& 0x08 ≠ 0) ∧
    ((flagsOf raw).rst = true ↔ raw &&& 0x10 ≠ 0) ∧ ((flagsOf raw).eac = true ↔ raw &&& 0x20 ≠ 0) ∧
    ((flagsOf raw).ack = true ↔ raw &&& 0x40 ≠ 0) ∧ ((flagsOf raw).syn = true ↔ raw &&& 0x80 ≠ 0)

/-- R101, R103: the fields of a `Data` response, for every segment with the SYN bit clear and at least 8 bytes. Bytes 4 and 5
and those past the header do not take part. -/
def Obligations.DecodeDataFields : Prop :=
  ∀ (b0 b1 b2 b3 b4 b5 b6 b7 : Byte) (rest : List Byte) (s : State), b0 &&& 0x80 = 0x00 →
    ∃ n : NonSynHeader,
      exec (.decode (b0 :: b1 :: b2 :: b3 :: b4 :: b5 :: b6 :: b7 :: rest)) s =
        .next { s with
          response := some (.decode (.ok (.data
            { flags := { raw := b0 }, headerLength := b1, sequenceNumber := b2, ackNumber := b3 } n)))
          locals := Locals.empty } ∧
      n.checksum.toNat = b6.toNat + 256 * b7.toNat

/-- R84, R85, R86, R88 to R98 (CHK is the line of R84): the fields of a `Syn` response, for every segment with the SYN bit set and at least 22 bytes. -/
def Obligations.DecodeSynFields : Prop :=
  ∀ (b0 b1 b2 b3 b4 b5 b6 b7 b8 b9 b10 b11 b12 b13 b14 b15 b16 b17 b18 b19 b20 b21 : Byte) (rest : List Byte) (s : State),
    b0 &&& 0x80 = 0x80 →
    ∃ x : SynHeaderExtension,
      exec (.decode (b0 :: b1 :: b2 :: b3 :: b4 :: b5 :: b6 :: b7 :: b8 :: b9 :: b10 :: b11 :: b12 :: b13 :: b14 :: b15 :: b16 ::
        b17 :: b18 :: b19 :: b20 :: b21 :: rest)) s =
        .next { s with
          response := some (.decode (.ok (.syn
            { flags := { raw := b0 }, headerLength := b1, sequenceNumber := b2, ackNumber := b3 } x)))
          locals := Locals.empty } ∧
      x.version.toNat = b4.toNat / 16 ∧ x.synFlags.toNat = b4.toNat % 16 ∧ (x.chk = true ↔ b4 &&& 0x04 ≠ 0) ∧
      x.maxOutstandingSegments = b5 ∧
      x.maxSegmentSize.toNat = b6.toNat + 256 * b7.toNat ∧
      x.retransmissionTimeout.toNat = b8.toNat + 256 * b9.toNat ∧
      x.cumulativeAckTimeout.toNat = b10.toNat + 256 * b11.toNat ∧
      x.nullTimeout.toNat = b12.toNat + 256 * b13.toNat ∧
      x.maxRetransmissions = b14 ∧ x.maxCumulativeAck = b15 ∧ x.maxOutOfSequenceAck = b16 ∧ x.timeoutUnit = b17 ∧
      x.connectionId.toNat = b18.toNat + 256 * b19.toNat + 65536 * b20.toNat + 16777216 * b21.toNat ∧
      x.checksum.toNat = b20.toNat + 256 * b21.toNat

/-- R24, R79: in every `Ok` response, of either variant, the four fields of the common header are bytes 0 to 3 of the segment, copied
unchanged. -/
def Obligations.DecodeCommonHeaderIsTheFirstFourBytes : Prop :=
  ∀ (buf : List Byte) (s t : State) (c : CommonHeader), exec (.decode buf) s = .next t →
    ((∃ n, t.response = some (.decode (.ok (.data c n)))) ∨ (∃ x, t.response = some (.decode (.ok (.syn c x))))) →
    ∃ b0 b1 b2 b3 rest, buf = b0 :: b1 :: b2 :: b3 :: rest ∧
      c.flags.raw = b0 ∧ c.headerLength = b1 ∧ c.sequenceNumber = b2 ∧ c.ackNumber = b3

/-- R99, which the spec derives from R97 and R98: in every `Syn` response `checksum` is the upper half of `connection_id`, whose lower half is bytes 18 and 19. -/
def Obligations.ChecksumSharesConnectionIdBytes : Prop :=
  ∀ (buf : List Byte) (s t : State) (c : CommonHeader) (x : SynHeaderExtension),
    exec (.decode buf) s = .next t → t.response = some (.decode (.ok (.syn c x))) →
    x.checksum = x.connectionId.extractLsb' 16 16 ∧
    (x.connectionId.extractLsb' 0 16).toNat = (buf.getD 18 0).toNat + 256 * (buf.getD 19 0).toNat

/-- R77, which the spec derives from R73 and R32: `DECODE` of a segment of either shape equals `DECODE` of its first 8 or 22 bytes, and bytes 4 and 5 of a `Data` segment do
not matter. -/
def Obligations.DecodeSeesOnlyTheHeader : Prop :=
  (∀ (buf : List Byte) (s : State), 8 ≤ buf.length → synBit buf = some false →
    exec (.decode buf) s = exec (.decode (buf.take 8)) s) ∧
  (∀ (buf : List Byte) (s : State), 22 ≤ buf.length → synBit buf = some true →
    exec (.decode buf) s = exec (.decode (buf.take 22)) s) ∧
  (∀ (buf : List Byte) (x y : Byte) (s : State), 8 ≤ buf.length → synBit buf = some false →
    exec (.decode ((buf.set 4 x).set 5 y)) s = exec (.decode buf) s)

/-! ## The error outcomes -/

/-- R110 (the spec's own decision D7): raising an error ends the operation with `Err(name)` and nothing else: the host's memory and the
request are unchanged, no register keeps a value. The codes are those of R104 (the spec's own, D6).
That a row performed by itself raises whether or not its cause holds is the model's choice (log 16). -/
def Obligations.ErrorOutcomesRaise : Prop :=
  ∀ s : State,
    exec .errTooShort s = .next { s with response := some (.decode (.err .tooShort)), locals := Locals.empty } ∧
    exec .errTooShortForCommon s = .next { s with response := some (.decode (.err .tooShortForCommon)), locals := Locals.empty } ∧
    exec .errTooShortForSyn s = .next { s with response := some (.decode (.err .tooShortForSyn)), locals := Locals.empty } ∧
    DecodeError.code .tooShort = 1 ∧ DecodeError.code .tooShortForCommon = 2 ∧ DecodeError.code .tooShortForSyn = 3

/-- R105, R106, R107: `DECODE` ends in the outcome of each error row exactly on that row's cause. -/
def Obligations.DecodeRaisesExactlyOnCause : Prop :=
  ∀ (buf : List Byte) (s t : State), exec (.decode buf) s = .next t →
    (t.response = some (.decode (.err .tooShort)) ↔ buf.length < 4) ∧
    (t.response = some (.decode (.err .tooShortForCommon)) ↔ 4 ≤ buf.length ∧ buf.length < 8 ∧ synBit buf = some false) ∧
    (t.response = some (.decode (.err .tooShortForSyn)) ↔ 4 ≤ buf.length ∧ buf.length < 22 ∧ synBit buf = some true)

/-- R108: a checksum that does not verify is no error. On a buffer whose checksum is not zero `CSUM` and `VERIFY` answer it with
`csum_zero` clear and the verdict fail, and `DECODE` still answers `Ok` where the shape's gate passes; such segments of both shapes
exist. -/
def Obligations.WrongChecksumIsNoError : Prop :=
  (∀ (buf : List Byte) (c : U16) (s : State), CsumAnswers buf c → c ≠ 0x0000 →
    (∃ t, exec (.verify buf) s = .next t ∧ t.response = some (.csum { csum := c, csumZero := false }) ∧ t.verdict = some false) ∧
    ((8 ≤ buf.length ∧ synBit buf = some false) ∨ (22 ≤ buf.length ∧ synBit buf = some true) →
      ∃ h, exec (.decode buf) s = .next { s with response := some (.decode (.ok h)), locals := Locals.empty })) ∧
  (∃ (buf : List Byte) (c : U16), CsumAnswers buf c ∧ c ≠ 0x0000 ∧ 8 ≤ buf.length ∧ synBit buf = some false) ∧
  (∃ (buf : List Byte) (c : U16), CsumAnswers buf c ∧ c ≠ 0x0000 ∧ 22 ≤ buf.length ∧ synBit buf = some true)

/-! ## The sub-operations and header variants on their own

Where they leave their results (log 4) and what they do on a buffer they are not meant for (log 10) are the model's choices. -/

/-- `DECODE.FLAGS` completes on every byte: the unpacked byte is its result (log 4), nothing else changes. -/
def Obligations.DecodeFlagsCompletes : Prop :=
  ∀ (raw : Byte) (s : State), ∃ f : Flags,
    exec (.decodeFlags raw) s = .next { s with locals := { s.locals with flags := some f } } ∧ f.raw = raw ∧
    f.busy = raw.getLsbD 0 ∧ f.nul = raw.getLsbD 3 ∧ f.rst = raw.getLsbD 4 ∧ f.eac = raw.getLsbD 5 ∧ f.ack = raw.getLsbD 6 ∧
    f.syn = raw.getLsbD 7

/-- `DECODE.COMMON` completes on every buffer of at least 4 bytes, with bytes 0 to 3 as its result (log 4); on a shorter one the first
gate has answered (R74; log 10). -/
def Obligations.DecodeCommonCompletes : Prop :=
  (∀ (b0 b1 b2 b3 : Byte) (rest : List Byte) (s : State),
    exec (.decodeCommon (b0 :: b1 :: b2 :: b3 :: rest)) s =
      .next { s with locals := { s.locals with
        flags := some { raw := b0 }
        common := some { flags := { raw := b0 }, headerLength := b1, sequenceNumber := b2, ackNumber := b3 } } }) ∧
  (∀ (buf : List Byte) (s : State), buf.length < 4 →
    exec (.decodeCommon buf) s = .next { s with response := some (.decode (.err .tooShort)), locals := Locals.empty })

/-- `DECODE.SYNEXT` completes on every buffer with the SYN bit set and at least 22 bytes (R83), with the extension that `DECODE`
returns as its result (log 4); on a shorter one its gate raises `TooShortForSyn` (R83); with the SYN bit clear it does not run (log 10). -/
def Obligations.DecodeSynextCompletesOrRaises : Prop :=
  ∀ (buf : List Byte) (s : State),
    (22 ≤ buf.length → synBit buf = some true → ∃ c x,
      exec (.decodeSynext buf) s = .next { s with locals := { s.locals with ext := some x } } ∧
      exec (.decode buf) s = .next { s with response := some (.decode (.ok (.syn c x))), locals := Locals.empty }) ∧
    (4 ≤ buf.length → buf.length ≤ 21 → synBit buf = some true →
      exec (.decodeSynext buf) s = .next { s with response := some (.decode (.err .tooShortForSyn)), locals := Locals.empty }) ∧
    (4 ≤ buf.length → synBit buf = some false → exec (.decodeSynext buf) s = .next s) ∧
    (buf.length < 4 →
      exec (.decodeSynext buf) s = .next { s with response := some (.decode (.err .tooShort)), locals := Locals.empty })

/-- `DECODE.NONSYN` completes on every buffer with the SYN bit clear and at least 8 bytes (R100), with the 16-bit value at offset 6 as
its result (log 4); on a shorter one its gate raises `TooShortForCommon` (R100); with the SYN bit set it does not run (log 10). -/
def Obligations.DecodeNonsynCompletesOrRaises : Prop :=
  ∀ (buf : List Byte) (s : State),
    (8 ≤ buf.length → synBit buf = some false → ∃ n,
      exec (.decodeNonsyn buf) s = .next { s with locals := { s.locals with ns := some n } } ∧
      n.checksum.toNat = (buf.getD 6 0).toNat + 256 * (buf.getD 7 0).toNat) ∧
    (4 ≤ buf.length → buf.length ≤ 7 → synBit buf = some false →
      exec (.decodeNonsyn buf) s = .next { s with response := some (.decode (.err .tooShortForCommon)), locals := Locals.empty }) ∧
    (4 ≤ buf.length → synBit buf = some true → exec (.decodeNonsyn buf) s = .next s) ∧
    (buf.length < 4 →
      exec (.decodeNonsyn buf) s = .next { s with response := some (.decode (.err .tooShort)), locals := Locals.empty })

/-- The header variants: on a buffer of its shape and at least its length each completes with the header `DECODE` returns; on any buffer
of its shape, or too short to have one, it answers what `DECODE` answers; on a buffer of the other shape it does not run (log 10). -/
def Obligations.HeaderVariantsAreTheBranchesOfDecode : Prop :=
  ∀ (buf : List Byte) (s : State),
    (22 ≤ buf.length → synBit buf = some true → ∃ c x,
      exec (.hdrSyn buf) s = .next { s with response := some (.decode (.ok (.syn c x))), locals := Locals.empty }) ∧
    (8 ≤ buf.length → synBit buf = some false → ∃ c n,
      exec (.hdrData buf) s = .next { s with response := some (.decode (.ok (.data c n))), locals := Locals.empty }) ∧
    (synBit buf = some true ∨ buf.length < 4 → exec (.hdrSyn buf) s = exec (.decode buf) s) ∧
    (synBit buf = some false ∨ buf.length < 4 → exec (.hdrData buf) s = exec (.decode buf) s) ∧
    (4 ≤ buf.length → synBit buf = some false → exec (.hdrSyn buf) s = .next s) ∧
    (4 ≤ buf.length → synBit buf = some true → exec (.hdrData buf) s = .next s)

/-- R73: `DECODE` is its sub-operations in order. After the first gate `DECODE.COMMON`, which unpacks the flag byte, completes; where the gate of the shape passes, the
extraction of the shape completes after it and `DECODE` returns exactly what the two extracted; where it does not, the extraction's
gate gives the outcome of `DECODE`. -/
def Obligations.DecodeIsItsSubOperations : Prop :=
  ∀ (buf : List Byte) (s : State), 4 ≤ buf.length → ∃ s1 c,
    exec (.decodeCommon buf) s = .next s1 ∧ s1.locals.common = some c ∧
    (synBit buf = some true → 22 ≤ buf.length → ∃ s2 x t,
      exec (.decodeSynext buf) s1 = .next s2 ∧ s2.locals.common = some c ∧ s2.locals.ext = some x ∧
      exec (.decode buf) s = .next t ∧ t.response = some (.decode (.ok (.syn c x)))) ∧
    (synBit buf = some false → 8 ≤ buf.length → ∃ s2 n t,
      exec (.decodeNonsyn buf) s1 = .next s2 ∧ s2.locals.common = some c ∧ s2.locals.ns = some n ∧
      exec (.decode buf) s = .next t ∧ t.response = some (.decode (.ok (.data c n)))) ∧
    (synBit buf = some true → buf.length < 22 → exec (.decodeSynext buf) s1 = exec (.decode buf) s) ∧
    (synBit buf = some false → buf.length < 8 → exec (.decodeNonsyn buf) s1 = exec (.decode buf) s)
end

