-- ==== Sys2Proof/Laws/State.lean ====
section
/-! SUPPORT. One lemma per field per update of State, each true by rfl. -/

namespace Sys2Proof.Machine

section
variable (s : State) (v : U16) (n : Nat) (f : Flags) (c : CommonHeader) (x : SynHeaderExtension) (m : NonSynHeader)
  (r : Response) (e : DecodeError) (op : BitVec 1) (buf : List Byte)

@[simp] theorem setAcc_mem : (setAcc v s).mem = s.mem := rfl
@[simp] theorem setAcc_request : (setAcc v s).request = s.request := rfl
@[simp] theorem setAcc_response : (setAcc v s).response = s.response := rfl
@[simp] theorem setAcc_acc : (setAcc v s).locals.acc = some v := rfl
@[simp] theorem setAcc_cur : (setAcc v s).locals.cur = s.locals.cur := rfl

@[simp] theorem setCur_mem : (setCur n s).mem = s.mem := rfl
@[simp] theorem setCur_request : (setCur n s).request = s.request := rfl
@[simp] theorem setCur_response : (setCur n s).response = s.response := rfl
@[simp] theorem setCur_cur : (setCur n s).locals.cur = some n := rfl
@[simp] theorem setCur_acc : (setCur n s).locals.acc = s.locals.acc := rfl

@[simp] theorem setFlags_mem : (setFlags f s).mem = s.mem := rfl
@[simp] theorem setFlags_request : (setFlags f s).request = s.request := rfl
@[simp] theorem setFlags_response : (setFlags f s).response = s.response := rfl
@[simp] theorem setFlags_flags : (setFlags f s).locals.flags = some f := rfl
@[simp] theorem setFlags_common : (setFlags f s).locals.common = s.locals.common := rfl

@[simp] theorem setCommon_mem : (setCommon c s).mem = s.mem := rfl
@[simp] theorem setCommon_request : (setCommon c s).request = s.request := rfl
@[simp] theorem setCommon_response : (setCommon c s).response = s.response := rfl
@[simp] theorem setCommon_common : (setCommon c s).locals.common = some c := rfl
@[simp] theorem setCommon_flags : (setCommon c s).locals.flags = s.locals.flags := rfl

@[simp] theorem setExt_mem : (setExt x s).mem = s.mem := rfl
@[simp] theorem setExt_request : (setExt x s).request = s.request := rfl
@[simp] theorem setExt_response : (setExt x s).response = s.response := rfl
@[simp] theorem setExt_ext : (setExt x s).locals.ext = some x := rfl
@[simp] theorem setExt_common : (setExt x s).locals.common = s.locals.common := rfl

@[simp] theorem setNs_mem : (setNs m s).mem = s.mem := rfl
@[simp] theorem setNs_request : (setNs m s).request = s.request := rfl
@[simp] theorem setNs_response : (setNs m s).response = s.response := rfl
@[simp] theorem setNs_ns : (setNs m s).locals.ns = some m := rfl
@[simp] theorem setNs_common : (setNs m s).locals.common = s.locals.common := rfl

@[simp] theorem respond_mem : (respond r s).mem = s.mem := rfl
@[simp] theorem respond_request : (respond r s).request = s.request := rfl
@[simp] theorem respond_response : (respond r s).response = some r := rfl
@[simp] theorem respond_locals : (respond r s).locals = Locals.empty := rfl

@[simp] theorem raise_mem : (raise e s).mem = s.mem := rfl
@[simp] theorem raise_request : (raise e s).request = s.request := rfl
@[simp] theorem raise_response : (raise e s).response = some (.decode (.err e)) := rfl
@[simp] theorem raise_locals : (raise e s).locals = Locals.empty := rfl

@[simp] theorem endTransaction_mem : (endTransaction s).mem = s.mem := rfl
@[simp] theorem endTransaction_request : (endTransaction s).request = none := rfl
@[simp] theorem endTransaction_response : (endTransaction s).response = s.response := rfl
@[simp] theorem endTransaction_locals : (endTransaction s).locals = s.locals := rfl

@[simp] theorem present_mem : (present op buf s).mem = cellsOf buf := rfl
@[simp] theorem present_request : (present op buf s).request = some { op := op, len := buf.length } := rfl
@[simp] theorem present_response : (present op buf s).response = s.response := rfl
@[simp] theorem present_locals : (present op buf s).locals = s.locals := rfl

end

/-! Whatever an operation left in its locals, the response it ends with sees none of it. -/

theorem respond_setAcc (r : Response) (v : U16) (s : State) : respond r (setAcc v s) = respond r s := rfl
theorem respond_setCur (r : Response) (n : Nat) (s : State) : respond r (setCur n s) = respond r s := rfl
theorem respond_setFlags (r : Response) (f : Flags) (s : State) : respond r (setFlags f s) = respond r s := rfl
theorem respond_setCommon (r : Response) (c : CommonHeader) (s : State) : respond r (setCommon c s) = respond r s := rfl
theorem respond_setExt (r : Response) (x : SynHeaderExtension) (s : State) : respond r (setExt x s) = respond r s := rfl
theorem respond_setNs (r : Response) (n : NonSynHeader) (s : State) : respond r (setNs n s) = respond r s := rfl
theorem raise_eq_respond (e : DecodeError) (s : State) : raise e s = respond (.decode (.err e)) s := rfl

end Sys2Proof.Machine
end

