-- ==== Sys2Proof/Laws/Memory.lean ====
section
/-! SUPPORT. The host's memory: the canonical form, read after write, and the buffer a memory holds. -/

namespace Sys2Proof.Machine

/-! ## Reads and writes -/

theorem Memory.read_write_same (m : Memory) (a : Nat) (v : Byte) : (m.write a v).read a = some v := by
  induction m with
  | nil => simp [Memory.write, Memory.read]
  | cons c m ih =>
    obtain ⟨k, b⟩ := c
    simp only [Memory.write]
    split
    · simp [Memory.read]
    · split
      · simp [Memory.read, *]
      · rename_i h1 h2
        simpa [Memory.read, show k ≠ a from fun h => h2 h.symm] using ih

theorem Memory.read_write_other (m : Memory) (a a' : Nat) (v : Byte) (h : a' ≠ a) :
    (m.write a v).read a' = m.read a' := by
  induction m with
  | nil => simp [Memory.write, Memory.read, h.symm]
  | cons c m ih =>
    obtain ⟨k, b⟩ := c
    simp only [Memory.write]
    split
    · simp [Memory.read, h.symm]
    · split
      · subst a
        simp [Memory.read, h.symm]
      · simp [Memory.read, ih]

/-- Every offset a write leaves listed was listed before or is the one written. -/
theorem Memory.mem_write (m : Memory) (a : Nat) (v : Byte) (c : Host.Cell) (h : c ∈ m.write a v) :
    c = (a, v) ∨ c ∈ m := by
  induction m with
  | nil => simpa [Memory.write] using h
  | cons d m ih =>
    obtain ⟨k, b⟩ := d
    simp only [Memory.write] at h
    split at h
    · simpa using h
    · split at h
      · subst a
        rcases List.mem_cons.mp h with h | h
        · exact .inl h
        · exact .inr (List.mem_cons_of_mem _ h)
      · rcases List.mem_cons.mp h with h | h
        · exact .inr (h ▸ List.mem_cons_self)
        · exact (ih h).imp id (List.mem_cons_of_mem _)

/-- A write keeps the canonical form. -/
theorem Memory.write_wf (m : Memory) (a : Nat) (v : Byte) (h : Memory.wf m) : Memory.wf (m.write a v) := by
  induction m with
  | nil => simp [Memory.wf, Memory.write]
  | cons c m ih =>
    obtain ⟨k, b⟩ := c
    obtain ⟨hk, hm⟩ := List.pairwise_cons.mp h
    simp only [Memory.write]
    split
    · rename_i ha
      refine List.pairwise_cons.mpr ⟨fun d hd => ?_, h⟩
      rcases List.mem_cons.mp hd with rfl | hd
      · exact ha
      · exact Nat.lt_trans ha (hk d hd)
    · split
      · exact List.pairwise_cons.mpr ⟨hk, hm⟩
      · rename_i h1 h2
        refine List.pairwise_cons.mpr ⟨fun d hd => ?_, ih hm⟩
        rcases Memory.mem_write m a v d hd with rfl | hd
        · show k < a
          omega
        · exact hk d hd

/-! ## A buffer in memory -/

theorem cellsFrom_offsets (k : Nat) (buf : List Byte) : ∀ c ∈ cellsFrom k buf, k ≤ c.1 := by
  induction buf generalizing k with
  | nil => simp [cellsFrom]
  | cons b bs ih =>
    intro c hc
    rcases List.mem_cons.mp hc with rfl | hc
    · exact Nat.le_refl _
    · exact Nat.le_of_succ_le (ih (k + 1) c hc)

theorem cellsFrom_wf (k : Nat) (buf : List Byte) : Memory.wf (cellsFrom k buf) := by
  induction buf generalizing k with
  | nil => exact List.Pairwise.nil
  | cons b bs ih =>
    exact List.pairwise_cons.mpr ⟨fun c hc => cellsFrom_offsets (k + 1) bs c hc, ih (k + 1)⟩

/-- A buffer laid out in memory is in canonical form. -/
theorem cellsOf_wf (buf : List Byte) : Memory.wf (cellsOf buf) := cellsFrom_wf 0 buf

theorem bufferFrom_cellsFrom (k : Nat) (buf : List Byte) : bufferFrom k (cellsFrom k buf) = some buf := by
  induction buf generalizing k with
  | nil => rfl
  | cons b bs ih => simp [cellsFrom, bufferFrom, ih]

/-- The buffer laid out in memory is the buffer read from it. -/
theorem bufferOf_cellsOf (buf : List Byte) : bufferOf (cellsOf buf) = some buf := bufferFrom_cellsFrom 0 buf

theorem cellsFrom_bufferFrom (k : Nat) (m : Memory) (buf : List Byte) (h : bufferFrom k m = some buf) :
    m = cellsFrom k buf := by
  induction m generalizing k buf with
  | nil =>
    simp only [bufferFrom, Option.some.injEq] at h
    subst h
    rfl
  | cons c m ih =>
    obtain ⟨a, b⟩ := c
    simp only [bufferFrom] at h
    split at h
    · rename_i ha
      obtain ⟨bs, hbs, rfl⟩ := Option.map_eq_some_iff.mp h
      rw [ih (k + 1) bs hbs, ha]
      rfl
    · cases h

/-- A memory that holds a buffer is that buffer laid out: equal buffers are equal memories. -/
theorem cellsOf_bufferOf (m : Memory) (buf : List Byte) (h : bufferOf m = some buf) : m = cellsOf buf :=
  cellsFrom_bufferFrom 0 m buf h

theorem read_cellsFrom (k : Nat) (buf : List Byte) (a : Nat) :
    Memory.read (cellsFrom k buf) (k + a) = buf[a]? := by
  induction buf generalizing k a with
  | nil => rfl
  | cons b bs ih =>
    cases a with
    | zero => simp [cellsFrom, Memory.read]
    | succ a =>
      have h := ih (k + 1) a
      rw [show k + 1 + a = k + (a + 1) by omega] at h
      simpa [cellsFrom, Memory.read] using h

/-- Byte `i` of a buffer is the byte at offset `i`, and no other offset exists (R9, R31). -/
theorem read_cellsOf (buf : List Byte) (a : Nat) : Memory.read (cellsOf buf) a = buf[a]? := by
  have h := read_cellsFrom 0 buf a
  rw [Nat.zero_add] at h
  exact h

/-! ## The host's actions keep the form -/

theorem present_wf (op : BitVec 1) (buf : List Byte) (s : State) : Memory.wf (present op buf s).mem := cellsOf_wf buf

theorem hostStore_wf (a : Nat) (v : Byte) (s : State) (h : Memory.wf s.mem) : Memory.wf (hostStore a v s).mem :=
  Memory.write_wf s.mem a v h

end Sys2Proof.Machine
end

