-- ==== Sys2Proof/Laws/Ops.lean ====
section
/-! SUPPORT. What each shared operation answers, said once: the reads, the extractions, one turn of the checksum loop, the step. -/

namespace Sys2Proof.Machine

/-! ## Reads -/

theorem read8_eq_ok (buf : List Byte) (o : Nat) (h : o < buf.length) : read8 buf o = .ok buf[o] := by
  simp [read8, List.getElem?_eq_getElem h]

/-- A read answers a byte exactly when the offset exists (R31). -/
theorem read8_ok_iff (buf : List Byte) (o : Nat) (b : Byte) : read8 buf o = .ok b ↔ buf[o]? = some b := by
  unfold read8
  cases buf[o]? <;> simp

theorem read16_eq_ok (buf : List Byte) (o : Nat) (h : o + 1 < buf.length) :
    read16 buf o = .ok (le16 buf[o] buf[o + 1]) := by
  simp [read16, read8_eq_ok, h, Nat.lt_of_succ_lt h, bind, Except.bind, pure, Except.pure]

theorem read32_eq_ok (buf : List Byte) (o : Nat) (h : o + 3 < buf.length) :
    read32 buf o = .ok (le32 buf[o] buf[o + 1] buf[o + 2] buf[o + 3]) := by
  have h0 : o < buf.length := by omega
  have h1 : o + 1 < buf.length := by omega
  have h2 : o + 2 < buf.length := by omega
  simp [read32, read8_eq_ok, h, h0, h1, h2, bind, Except.bind, pure, Except.pure]

/-- The little-endian value of two bytes (R35). -/
theorem le16_toNat (b0 b1 : Byte) : (le16 b0 b1).toNat = b0.toNat + 256 * b1.toNat := by
  have h0 := b0.isLt
  have h1 := b1.isLt
  have hb : b1.toNat <<< 8 % 65536 = b1.toNat <<< 8 := by
    rw [Nat.shiftLeft_eq]
    omega
  have h : (le16 b0 b1).toNat = b0.toNat ||| b1.toNat <<< 8 := by
    simp [le16, BitVec.toNat_setWidth, Nat.mod_eq_of_lt (show b0.toNat < 65536 by omega),
      Nat.mod_eq_of_lt (show b1.toNat < 65536 by omega), hb]
  rw [h, Nat.or_comm, ← Nat.shiftLeft_add_eq_or_of_lt h0, Nat.shiftLeft_eq]
  omega

/-! ## Extractions -/

theorem commonHeader_eq_ok (f : Flags) (buf : List Byte) (h : 4 ≤ buf.length) :
    commonHeader f buf =
      .ok { flags := f, headerLength := buf[1], sequenceNumber := buf[2], ackNumber := buf[3] } := by
  simp [commonHeader, read8_eq_ok, show 1 < buf.length by omega, show 2 < buf.length by omega,
    show 3 < buf.length by omega, bind, Except.bind, pure, Except.pure]

/-- Step 1 of `DECODE` on any buffer that passed the first gate. -/
theorem commonStep_eq_ok (buf : List Byte) (s : State) (h : 4 ≤ buf.length) :
    commonStep buf s =
      .ok (setCommon { flags := flagsOf buf[0], headerLength := buf[1], sequenceNumber := buf[2], ackNumber := buf[3] }
        (setFlags (flagsOf buf[0]) s)) := by
  simp [commonStep, read8_eq_ok, show 0 < buf.length by omega, commonHeader_eq_ok _ _ h, valueOf,
    bind, Except.bind, pure, Except.pure]

/-- The extension of a buffer that passed the SYN gate is assembled from offsets 4 to 21 (R84). -/
theorem synExtension_eq_ok (buf : List Byte) (h : 22 ≤ buf.length) :
    synExtension buf = .ok {
      version := highNibble buf[4]
      synFlags := lowNibble buf[4]
      maxOutstandingSegments := buf[5]
      maxSegmentSize := le16 buf[6] buf[7]
      retransmissionTimeout := le16 buf[8] buf[9]
      cumulativeAckTimeout := le16 buf[10] buf[11]
      nullTimeout := le16 buf[12] buf[13]
      maxRetransmissions := buf[14]
      maxCumulativeAck := buf[15]
      maxOutOfSequenceAck := buf[16]
      timeoutUnit := buf[17]
      connectionId := le32 buf[18] buf[19] buf[20] buf[21]
      checksum := le16 buf[20] buf[21] } := by
  have r8 : ∀ o, (ho : o < 22) → read8 buf o = .ok (buf[o]'(by omega)) := fun o ho => read8_eq_ok buf o (by omega)
  have r16 : ∀ o, (ho : o + 1 < 22) → read16 buf o = .ok (le16 (buf[o]'(by omega)) (buf[o + 1]'(by omega))) :=
    fun o ho => read16_eq_ok buf o (by omega)
  simp [synExtension, r8, r16, read32_eq_ok buf 18 (by omega), bind, Except.bind, pure, Except.pure]

/-- The non-SYN header of a buffer that passed its gate is assembled from offsets 6 and 7 (R103). -/
theorem nonSynHeader_eq_ok (buf : List Byte) (h : 8 ≤ buf.length) :
    nonSynHeader buf = .ok { checksum := le16 buf[6] buf[7] } := by
  simp [nonSynHeader, read16_eq_ok buf 6 (by omega), bind, Except.bind, pure, Except.pure]

/-! ## One turn of the checksum loop -/

/-- With a whole word left, a turn folds it into `ACC` and moves `CUR` past it (R65). -/
theorem csumWhile_turn (fuel : Nat) (buf : List Byte) (s : State) (acc : U16) (cur : Nat) (h : cur + 1 < buf.length) :
    csumWhile (fuel + 1) buf (setCur cur (setAcc acc s)) =
      csumWhile fuel buf (setCur (cur + 2) (setAcc (sum16 acc (le16 buf[cur] buf[cur + 1])) s)) := by
  simp [csumWhile, valueOf, h, read16_eq_ok buf cur h, bind, Except.bind]
  rfl

/-- With less than a whole word left, the loop is over. -/
theorem csumWhile_stop (fuel : Nat) (buf : List Byte) (s : State) (acc : U16) (cur : Nat) (h : ¬ cur + 1 < buf.length) :
    csumWhile fuel buf (setCur cur (setAcc acc s)) = .ok (setCur cur (setAcc acc s)) := by
  cases fuel <;> simp [csumWhile, valueOf, h, bind, Except.bind]

/-! ## The step -/

/-- Everything a step that goes on can have done: waited, or performed one decoded request. -/
theorem step_cases (s t : State) (h : step s = .next t) :
    (s.request = none ∧ t = s) ∨
    (∃ r i u, s.request = some r ∧ decodeRequest r s.mem = .ok i ∧ exec i s = .next u ∧ t = endTransaction u) := by
  unfold step at h
  split at h
  · rename_i hr
    cases h
    exact .inl ⟨hr, rfl⟩
  · rename_i r hr
    split at h
    · cases h
    · rename_i i hi
      split at h
      · rename_i u hu
        cases h
        exact .inr ⟨r, i, u, hr, hi, hu, rfl⟩
      · cases h
      · cases h

/-- Everything the decoder can read from a request: a `CSUM` or a `DECODE` of the buffer the memory holds (R48). -/
theorem decodeRequest_cases (r : Request) (m : Memory) (i : Instr) (h : decodeRequest r m = .ok i) :
    ∃ buf, bufferOf m = some buf ∧ r.len = buf.length ∧ i = decodeOp r.op buf := by
  unfold decodeRequest at h
  split at h
  · cases h
  · rename_i buf hb
    split at h
    · cases h
    · rename_i hl
      refine ⟨buf, hb, by simpa using hl, ?_⟩
      simp only [Config.admits, Config.maxLen, if_true] at h
      cases h
      rfl

end Sys2Proof.Machine
end

