-- ==== Sys2Proof/Laws/PerInstr.lean ====
section
/-! SUPPORT. Families of statements about every instruction as syntax, one lemma per constructor. -/

/-- The words of an instruction that is a request carry the buffer in the canonical form of memory, with its true length. -/
def Sys2Proof.Laws.EncodeCanonical.Statement (i : Sys2Proof.Instr) : Prop :=
  ∀ r cells, Sys2Proof.encode i = some (.request r cells) →
    Sys2Proof.Machine.Memory.wf cells ∧ r.len = cells.length

namespace Sys2Proof.Laws.EncodeCanonical

theorem cellsFrom_length (k : Nat) (buf : List Byte) : (cellsFrom k buf).length = buf.length := by
  induction buf generalizing k with
  | nil => rfl
  | cons b bs ih => simp [cellsFrom, ih]

theorem requestWords_canonical (op : BitVec 1) (buf : List Byte) (r : Request) (cells : List Host.Cell)
    (h : requestWords op buf = .request r cells) : Machine.Memory.wf cells ∧ r.len = cells.length := by
  cases h
  exact ⟨Machine.cellsOf_wf buf, (cellsFrom_length 0 buf).symm⟩

theorem csum (buf : List Byte) : Statement (.csum buf) :=
  fun r cells h => requestWords_canonical 0 buf r cells (Option.some.inj h)

theorem decode (buf : List Byte) : Statement (.decode buf) :=
  fun r cells h => requestWords_canonical 1 buf r cells (Option.some.inj h)

theorem verify (buf : List Byte) : Statement (.verify buf) :=
  fun r cells h => requestWords_canonical 0 buf r cells (Option.some.inj h)

theorem sum16 (a b : U16) : Statement (.sum16 a b) := fun _ _ h => by cases h
theorem hdrData (buf : List Byte) : Statement (.hdrData buf) := fun _ _ h => by cases h
theorem hdrSyn (buf : List Byte) : Statement (.hdrSyn buf) := fun _ _ h => by cases h
theorem decodeCommon (buf : List Byte) : Statement (.decodeCommon buf) := fun _ _ h => by cases h
theorem decodeFlags (raw : Byte) : Statement (.decodeFlags raw) := fun _ _ h => by cases h
theorem decodeSynext (buf : List Byte) : Statement (.decodeSynext buf) := fun _ _ h => by cases h
theorem decodeNonsyn (buf : List Byte) : Statement (.decodeNonsyn buf) := fun _ _ h => by cases h
theorem errTooShort : Statement .errTooShort := fun _ _ h => by cases h
theorem errTooShortForCommon : Statement .errTooShortForCommon := fun _ _ h => by cases h
theorem errTooShortForSyn : Statement .errTooShortForSyn := fun _ _ h => by cases h

end Sys2Proof.Laws.EncodeCanonical
end

