-- ==== Sys2Proof/Tests/Slice0.lean ====
section
/-! SUPPORT. The model's own tests. Expected values are the spec's: the vectors of 95_test_vectors.md (V-...), the examples of the
rules, and the table's encodings. After them, for each statement with hypotheses, a state and operands that meet them. -/

namespace Sys2Proof.Tests

open Sys2Proof.Machine

/-! ## Helpers -/

/-- A state in which an earlier transaction has left a response and, as no run does, every register holds something. -/
def stale : State :=
  { mem := [(0, 0xAA)], request := none,
    locals := { Locals.empty with acc := some 0xBEEF, cur := some 7 },
    response := some (.csum { csum := 0x1234, csumZero := false }) }

/-- `SYNX` of 95_test_vectors.md. -/
def synx : List Byte :=
  [0x80, 0x10, 0x05, 0x03, 0x14, 0x08, 0x00, 0x04, 0x64, 0x00, 0x32, 0x00, 0xB8, 0x0B, 0x0F, 0x02, 0x03, 0x03, 0x78, 0x56, 0x34, 0x12]

/-- The buffer of V-D7. -/
def dataSeg : List Byte := [0x01, 0x02, 0x05, 0x03, 0x00, 0x00, 0xCD, 0xAB]

/-- The common header of `SYNX` (V-D12). -/
def synxCommon : CommonHeader := { flags := { raw := 0x80 }, headerLength := 0x10, sequenceNumber := 5, ackNumber := 3 }

/-- The extension of `SYNX` (V-D12). -/
def synxExt : SynHeaderExtension :=
  { version := 1, synFlags := 4, maxOutstandingSegments := 8, maxSegmentSize := 1024, retransmissionTimeout := 100,
    cumulativeAckTimeout := 50, nullTimeout := 3000, maxRetransmissions := 15, maxCumulativeAck := 2,
    maxOutOfSequenceAck := 3, timeoutUnit := 3, connectionId := 0x12345678, checksum := 0x1234 }

/-- The common header of V-D7. -/
def dataCommon : CommonHeader := { flags := { raw := 0x01 }, headerLength := 2, sequenceNumber := 5, ackNumber := 3 }

/-- The state an operation that answers `r` leaves after `stale`. -/
def answered (r : Response) : State := { stale with response := some r, locals := Locals.empty }

/-! ## WellFormed: each check refuses an ill-formed term -/

theorem test_wf_refuses_buffer_above_max_len : Instr.wfFor (some 3) (.csum [1, 2, 3, 4]) = false := by decide
theorem test_wf_refuses_request_above_max_len :
    Instr.wfFor (some 3) (.decode dataSeg) = false ∧ Instr.wfFor (some 3) (.verify dataSeg) = false := by decide
theorem test_wf_refuses_step_above_max_len :
    Instr.wfFor (some 7) (.decodeCommon dataSeg) = false ∧ Instr.wfFor (some 7) (.hdrData dataSeg) = false ∧
    Instr.wfFor (some 7) (.decodeNonsyn dataSeg) = false ∧ Instr.wfFor (some 21) (.hdrSyn synx) = false ∧
    Instr.wfFor (some 21) (.decodeSynext synx) = false := by decide
theorem test_wf_refuses_common_of_three_bytes : Instr.wf (.decodeCommon [1, 2, 3]) = false := by decide
theorem test_wf_refuses_data_of_syn_segment :
    Instr.wf (.hdrData synx) = false ∧ Instr.wf (.decodeNonsyn synx) = false := by decide
theorem test_wf_refuses_data_of_seven_bytes :
    Instr.wf (.hdrData (dataSeg.take 7)) = false ∧ Instr.wf (.decodeNonsyn (dataSeg.take 7)) = false := by decide
theorem test_wf_refuses_syn_of_data_segment :
    Instr.wf (.hdrSyn (0x01 :: synx.tail)) = false ∧ Instr.wf (.decodeSynext (0x01 :: synx.tail)) = false := by decide
theorem test_wf_refuses_syn_of_21_bytes :
    Instr.wf (.hdrSyn (synx.take 21)) = false ∧ Instr.wf (.decodeSynext (synx.take 21)) = false := by decide
theorem test_wf_accepts_the_examples :
    Instr.wf (.hdrSyn synx) = true ∧ Instr.wf (.hdrData dataSeg) = true ∧ Instr.wf (.decodeCommon dataSeg) = true := by decide

/-! ## Decode: words written out from the encodings (R48, R55, R59) -/

theorem test_decode_csum_word : decodeTableWord 8 0b00000000 = some (.csum []) := by decide
theorem test_decode_decode_word : decodeTableWord 8 0b00000001 = some (.decode []) := by decide
theorem test_decode_request_with_bytes : decodeTableWord 24 0x100501 = some (.decode [0x05, 0x10]) := by decide
theorem test_verify_words_are_csum_words : encode (.verify [0x34]) = encode (.csum [0x34]) := by decide
theorem test_sum16_has_no_words : encode (.sum16 1 2) = none := by decide
theorem test_decode_header_bytes :
    decodeHeader [0b10000000] = .ok (.hdrSyn [0x80]) ∧ decodeHeader [0b01111111] = .ok (.hdrData [0x7F]) := ⟨rfl, rfl⟩
theorem test_step_words_are_header_words :
    encode (.decodeCommon dataSeg) = some (.header dataSeg) ∧ encode (.decodeSynext synx) = some (.header synx) ∧
    encode (.decodeNonsyn dataSeg) = some (.header dataSeg) ∧ encode (.decodeFlags 0xC1) = some (.header [0xC1]) := by decide
theorem test_decode_error_status :
    decodeStatus 0b01 = .ok .errTooShort ∧ decodeStatus 0b10 = .ok .errTooShortForCommon ∧
    decodeStatus 0b11 = .ok .errTooShortForSyn := ⟨rfl, rfl, rfl⟩
theorem test_decode_rejects_ok_status : decodeStatus 0b00 = .error .statusIsOk := rfl
theorem test_decode_rejects_empty_header : decodeHeader [] = .error .noByteZero := rfl
theorem test_decode_rejects_wrong_len : decodeRequest { op := 0, len := 3 } [(0, 1), (1, 2)] = .error .lenMismatch := rfl
theorem test_decode_rejects_hole : decodeRequest { op := 0, len := 2 } [(0, 1), (2, 2)] = .error .bufferNotContiguous := rfl

/-! ## The instructions -/

/-- V-S5: the carry comes back in at bit 0. -/
theorem test_sum16_end_around_carry : exec (.sum16 0xFFFF 0x0001) stale =
    .next { stale with locals := { stale.locals with acc := some 0x0001 } } := rfl
/-- V-S4: no second carry. -/
theorem test_sum16_largest : sum16 0xFFFF 0xFFFF = 0xFFFF := by decide

/-- V-C17: odd length, no carry; a stale accumulator does not matter. -/
theorem test_csum_odd_length : exec (.csum [0x12, 0x34, 0x56, 0x78, 0x9A]) stale =
    .next (answered (.csum { csum := 0x52FD, csumZero := false })) := rfl
/-- V-C18: one carry, at the fourth word. -/
theorem test_csum_carry : exec (.csum [0x00, 0x01, 0xF2, 0x03, 0xF4, 0xF5, 0xF6, 0xF7]) stale =
    .next (answered (.csum { csum := 0x0D22, csumZero := false })) := rfl

/-- V-P1 step 2: a sealed header passes. -/
theorem test_verify_pass : (match exec (.verify [0x01, 0x02, 0x05, 0x03, 0x00, 0x00, 0xF9, 0xFA]) stale with
    | .next t => t.verdict
    | .fault _ => none
    | .refused _ => none) = some true := by decide
/-- P2 step 2: `SYNX` as written fails, with `csum` 0x665A. -/
theorem test_verify_fail : exec (.verify synx) stale = .next (answered (.csum { csum := 0x665A, csumZero := false })) := rfl

/-- V-D12. -/
theorem test_decode_syn : exec (.decode synx) stale = .next (answered (.decode (.ok (.syn synxCommon synxExt)))) := rfl
/-- V-D9: trailing bytes are ignored. -/
theorem test_decode_data_with_trailer : exec (.decode (dataSeg ++ [0x11, 0x22, 0x33])) stale =
    .next (answered (.decode (.ok (.data dataCommon { checksum := 0xABCD })))) := rfl

/-- V-D8: reserved bytes are ignored. -/
theorem test_hdr_data : exec (.hdrData [0x01, 0x02, 0x05, 0x03, 0xDE, 0xAD, 0xCD, 0xAB]) stale =
    .next (answered (.decode (.ok (.data dataCommon { checksum := 0xABCD })))) := rfl
/-- V-D6: seven bytes are too few. -/
theorem test_hdr_data_too_short : exec (.hdrData [0x40, 0x02, 0x05, 0x03, 0x00, 0x00, 0xCD]) stale =
    .next (answered (.decode (.err .tooShortForCommon))) := rfl

/-- V-D13: the checksum is still bytes 20 and 21. -/
theorem test_hdr_syn : exec (.hdrSyn (synx ++ [0xAA, 0xBB])) stale =
    .next (answered (.decode (.ok (.syn synxCommon synxExt)))) := rfl
/-- V-D11: 21 bytes are too few. -/
theorem test_hdr_syn_too_short : exec (.hdrSyn (synx.take 21)) stale =
    .next (answered (.decode (.err .tooShortForSyn))) := rfl

/-- The example of R79. -/
theorem test_decode_common : exec (.decodeCommon [0x80, 0x10, 0x05, 0x03]) stale =
    .next { stale with locals := { stale.locals with flags := some { raw := 0x80 }, common := some synxCommon } } := rfl
/-- V-D3: SYN is set but the first gate wins. -/
theorem test_decode_common_too_short : exec (.decodeCommon [0x80, 0x10, 0x05]) stale =
    .next (answered (.decode (.err .tooShort))) := rfl

/-- V-F4. -/
theorem test_decode_flags : exec (.decodeFlags 0b11000001) stale =
    .next { stale with locals := { stale.locals with flags := some { raw := 0xC1 } } } := rfl
/-- V-F4, V-F3: the views, in the order busy, nul, rst, eac, ack, syn. -/
theorem test_flag_views :
    ((flagsOf 0xC1).busy, (flagsOf 0xC1).nul, (flagsOf 0xC1).rst, (flagsOf 0xC1).eac, (flagsOf 0xC1).ack, (flagsOf 0xC1).syn) =
      (true, false, false, false, true, true) ∧
    ((flagsOf 0x06).busy, (flagsOf 0x06).nul, (flagsOf 0x06).rst, (flagsOf 0x06).eac, (flagsOf 0x06).ack, (flagsOf 0x06).syn) =
      (false, false, false, false, false, false) := by decide

/-- V-D12, the extension alone. -/
theorem test_decode_synext : exec (.decodeSynext synx) stale =
    .next { stale with locals := { stale.locals with ext := some synxExt } } := rfl
/-- V-N3: every bit of byte 4 but CHK. -/
theorem test_byte4_nibbles : highNibble 0xFB = 15 ∧ lowNibble 0xFB = 0xB ∧ { synxExt with synFlags := lowNibble 0xFB }.chk = false ∧
    synxExt.chk = true := by decide

/-- V-D7, the non-SYN header alone. -/
theorem test_decode_nonsyn : exec (.decodeNonsyn dataSeg) stale =
    .next { stale with locals := { stale.locals with ns := some { checksum := 0xABCD } } } := rfl
/-- R100: `len = 7` fails. -/
theorem test_decode_nonsyn_too_short : exec (.decodeNonsyn (dataSeg.take 7)) stale =
    .next (answered (.decode (.err .tooShortForCommon))) := rfl

theorem test_err_too_short : exec .errTooShort stale = .next (answered (.decode (.err .tooShort))) := rfl
theorem test_err_too_short_for_common : exec .errTooShortForCommon stale =
    .next (answered (.decode (.err .tooShortForCommon))) := rfl
theorem test_err_too_short_for_syn : exec .errTooShortForSyn stale = .next (answered (.decode (.err .tooShortForSyn))) := rfl

/-! ## The step -/

/-- P3 step 3, as one transaction: the SYN bit alone changes the outcome of V-D7 (V-D14). -/
theorem test_step_decode : step (present 1 [0x80, 0x02, 0x05, 0x03, 0x00, 0x00, 0xCD, 0xAB] stale) =
    .next { mem := cellsOf [0x80, 0x02, 0x05, 0x03, 0x00, 0x00, 0xCD, 0xAB], request := none, locals := Locals.empty,
            response := some (.decode (.err .tooShortForSyn)) } := rfl
/-- S5: `CSUM []` from reset. -/
theorem test_step_csum_from_reset : step (State.reset.withFetchWord 8 0) =
    .next { State.reset with response := some (.csum { csum := 0xFFFF, csumZero := false }) } := rfl
theorem test_step_refuses_wrong_len : step { stale with request := some { op := 0, len := 2 } } =
    .refused (.notARequest .lenMismatch) := rfl
theorem test_step_waits : step stale = .next stale := rfl

/-! ## Witnesses: for each statement with hypotheses, a case that meets them, at the boundaries of each clause -/

theorem witness_DecodeOfEncodeIsOwner : Instr.wf (.hdrSyn synx) = true ∧ encode (.hdrSyn synx) = some (.header synx) := by decide
theorem witness_DecodeOfEncodeIsOwner_request :
    Instr.wf (.csum [0x34]) = true ∧ encode (.csum [0x34]) = some (.request { op := 0, len := 1 } [(0, 0x34)]) := by decide
theorem witness_EncodeOfDecodeIsTheWords :
    decodeWords (.request { op := 1, len := 1 } [(0, 0x80)]) = .ok (.decode [0x80]) := rfl
theorem witness_LaunchThatIsNoRequestIsRefused :
    ({ stale with request := some { op := 0, len := 2 } } : State).request = some { op := 0, len := 2 } ∧
    ∀ buf : List Byte, [(0, 0xAA)] = cellsOf buf → 2 ≠ buf.length := by
  refine ⟨rfl, fun buf h => ?_⟩
  match buf, h with
  | [], h => cases h
  | [_], _ => simp
  | _ :: _ :: _, h => simp [cellsOf, cellsFrom] at h
theorem witness_ResponseCodes_data : exec (.decode dataSeg) stale = .next (answered (.decode (.ok (.data dataCommon { checksum := 0xABCD })))) ∧
    ∃ n, (answered (.decode (.ok (.data dataCommon { checksum := 0xABCD })))).response = some (.decode (.ok (.data dataCommon n))) :=
  ⟨rfl, _, rfl⟩
theorem witness_ResponseCodes_syn : exec (.decode synx) stale = .next (answered (.decode (.ok (.syn synxCommon synxExt)))) ∧
    ∃ x, (answered (.decode (.ok (.syn synxCommon synxExt)))).response = some (.decode (.ok (.syn synxCommon x))) := ⟨rfl, _, rfl⟩
theorem witness_StepPerformsDecodedInstruction :
    (present 0 [0x34] stale).request = some { op := 0, len := 1 } ∧
    decodeRequest { op := 0, len := 1 } (present 0 [0x34] stale).mem = .ok (.csum [0x34]) ∧
    ∃ t, exec (.csum [0x34]) (present 0 [0x34] stale) = .next t := ⟨rfl, rfl, _, rfl⟩
theorem witness_IdleBlockWaits : stale.request = none := rfl
theorem witness_TransactionDependsOnRequestAlone :
    (present 1 synx stale).mem = (present 1 synx State.reset).mem ∧
    (present 1 synx stale).request = (present 1 synx State.reset).request ∧ (present 1 synx stale).request ≠ none ∧
    (present 1 synx stale) ≠ (present 1 synx State.reset) := by decide
theorem witness_NothingIsRemembered : ∃ t, step (present 1 [0x80, 0x10, 0x05] stale) = .next t ∧
    t.response = some (.decode (.err .tooShort)) := ⟨_, rfl, rfl⟩
theorem witness_BlockStoresNothing : (∃ t, exec (.decode synx) stale = .next t) ∧ (∃ t, step (present 0 synx stale) = .next t) :=
  ⟨⟨_, rfl⟩, _, rfl⟩
theorem witness_EveryInstructionFrame : ∃ t, exec (.decodeSynext synx) stale = .next t ∧ t.response = stale.response := ⟨_, rfl, rfl⟩
theorem witness_StepKeepsInvariant : (present 1 synx State.reset).Inv ∧ ∃ t, step (present 1 synx State.reset) = .next t :=
  ⟨by decide, _, rfl⟩
theorem witness_StepKeepsInvariant_fails_of_stale : ¬ stale.Inv := by decide
theorem witness_CsumClosedForm_order : wordSum [0x01, 0x02, 0x05, 0x03] = wordSum [0x05, 0x03, 0x01, 0x02] ∧
    0 < wordSum [0xFF, 0xFF] ∧ wordSum [0x00] = 0 := by decide
theorem witness_CsumClosedForm_perm : List.Perm (wordsOf [0x01, 0x02, 0x05, 0x03]) (wordsOf [0x05, 0x03, 0x01, 0x02]) := by decide
theorem witness_CsumCornerCases_lane : ([0x12, 0x34] : List Byte).length % 2 = 0 := by decide
/-- P1: the sealed field at offset 6. -/
theorem witness_SealedBufferVerifies :
    6 % 2 = 0 ∧ 6 + 1 < ([0x01, 0x02, 0x05, 0x03, 0, 0, 0, 0] : List Byte).length ∧
    ([0x01, 0x02, 0x05, 0x03, 0, 0, 0, 0] : List Byte)[6]? = some 0x00 ∧
    ([0x01, 0x02, 0x05, 0x03, 0, 0, 0, 0] : List Byte)[7]? = some 0x00 := by decide
theorem witness_SealedHeader_data : synBit [0x01, 0x02, 0x05, 0x03, 0, 0, 0, 0] = some false ∧
    8 ≤ ([0x01, 0x02, 0x05, 0x03, 0, 0, 0, 0] : List Byte).length ∧
    ([0x01, 0x02, 0x05, 0x03, 0, 0, 0, 0] : List Byte)[6]? = some 0x00 ∧
    ([0x01, 0x02, 0x05, 0x03, 0, 0, 0, 0] : List Byte)[7]? = some 0x00 := by decide
/-- P2 step 3. -/
theorem witness_SealedHeader_syn : synBit (synx.take 20 ++ [0, 0]) = some true ∧ 22 ≤ (synx.take 20 ++ [0, 0]).length ∧
    (synx.take 20 ++ [0, 0])[20]? = some 0x00 ∧ (synx.take 20 ++ [0, 0])[21]? = some 0x00 := by decide
theorem witness_VerifyDoesNotSeeEqualSums : rep (wordSum [0xFF, 0xFF]) = rep (wordSum [0xFF, 0xFF, 0xFF, 0xFF]) := by decide
theorem witness_DecodeOutcomeTable_TooShort :
    ([] : List Byte).length < 4 ∧ (synx.take 3).length < 4 := by decide
theorem witness_DecodeOutcomeTable_Common :
    4 ≤ (dataSeg.take 4).length ∧ (dataSeg.take 4).length ≤ 7 ∧ synBit (dataSeg.take 4) = some false ∧
    (dataSeg.take 7).length ≤ 7 ∧ synBit (dataSeg.take 7) = some false := by decide
theorem witness_DecodeOutcomeTable_Data : 8 ≤ dataSeg.length ∧ synBit dataSeg = some false ∧ dataSeg.length = 8 := by decide
theorem witness_DecodeOutcomeTable_ForSyn :
    4 ≤ (synx.take 4).length ∧ (synx.take 4).length ≤ 21 ∧ synBit (synx.take 4) = some true ∧ (synx.take 21).length ≤ 21 := by decide
theorem witness_DecodeOutcomeTable_Syn : 22 ≤ synx.length ∧ synBit synx = some true ∧ synx.length = 22 := by decide
theorem witness_DecodeDataFields : (0x7F : Byte) &&& 0x80 = 0x00 := by decide
theorem witness_DecodeSynFields : (0x80 : Byte) &&& 0x80 = 0x80 ∧ (0xFF : Byte) &&& 0x80 = 0x80 := by decide
theorem witness_ChecksumSharesConnectionIdBytes : exec (.decode synx) stale = .next (answered (.decode (.ok (.syn synxCommon synxExt)))) ∧
    (answered (.decode (.ok (.syn synxCommon synxExt)))).response = some (.decode (.ok (.syn synxCommon synxExt))) := ⟨rfl, rfl⟩
theorem witness_DecodeCommonHeader_data : exec (.decode dataSeg) stale =
      .next (answered (.decode (.ok (.data dataCommon { checksum := 0xABCD })))) ∧
    ∃ n, (answered (.decode (.ok (.data dataCommon { checksum := 0xABCD })))).response = some (.decode (.ok (.data dataCommon n))) :=
  ⟨rfl, _, rfl⟩
theorem witness_DecodeCommonHeader_syn : exec (.decode synx) stale = .next (answered (.decode (.ok (.syn synxCommon synxExt)))) ∧
    ∃ x, (answered (.decode (.ok (.syn synxCommon synxExt)))).response = some (.decode (.ok (.syn synxCommon x))) := ⟨rfl, _, rfl⟩
/-- The four turns of the loop over V-D7's buffer, from every state; the sum by hand is 0xB0D3. -/
theorem witness_dataSeg_loop (s : State) :
    csumWhile 8 dataSeg (setCur 0 (setAcc accInit s)) = .ok (setCur 8 (setAcc 0xB0D3 s)) := by
  rw [csumWhile_turn 7 dataSeg s _ 0 (by decide), csumWhile_turn 6 dataSeg s _ _ (by decide),
    csumWhile_turn 5 dataSeg s _ _ (by decide), csumWhile_turn 4 dataSeg s _ _ (by decide),
    csumWhile_stop 4 dataSeg s _ _ (by decide)]
  exact congrArg (fun v => Except.ok (setCur 8 (setAcc v s))) (by decide)
/-- The buffer of V-D7 has a checksum that does not verify. -/
theorem witness_WrongChecksumIsNoError :
    CsumAnswers dataSeg 0x4F2C ∧ (0x4F2C : U16) ≠ 0x0000 ∧ 8 ≤ dataSeg.length ∧ synBit dataSeg = some false ∧
    22 ≤ synx.length ∧ synBit synx = some true := by
  refine ⟨fun s => ?_, by decide⟩
  simp only [exec, execCsum, csumRun, show dataSeg.length = 8 from rfl, witness_dataSeg_loop]
  rfl
theorem witness_DecodeSeesOnlyTheHeader : 8 ≤ (dataSeg ++ [0x11]).length ∧ synBit (dataSeg ++ [0x11]) = some false ∧
    22 ≤ (synx ++ [0xAA]).length ∧ synBit (synx ++ [0xAA]) = some true := by decide
theorem witness_DecodeRaisesExactlyOnCause : ∃ t, exec (.decode (synx.take 21)) stale = .next t ∧
    t.response = some (.decode (.err .tooShortForSyn)) := ⟨_, rfl, rfl⟩
theorem witness_DecodeCommonCompletes : (dataSeg.take 3).length < 4 := by decide
theorem witness_DecodeSynext : 22 ≤ synx.length ∧ synBit synx = some true ∧ 4 ≤ (synx.take 21).length ∧ (synx.take 21).length ≤ 21 ∧
    synBit (synx.take 21) = some true ∧ 4 ≤ dataSeg.length ∧ synBit dataSeg = some false ∧ (synx.take 3).length < 4 := by decide
theorem witness_DecodeNonsyn : 8 ≤ dataSeg.length ∧ synBit dataSeg = some false ∧ 4 ≤ (dataSeg.take 7).length ∧
    (dataSeg.take 7).length ≤ 7 ∧ synBit (dataSeg.take 7) = some false ∧ 4 ≤ synx.length ∧ synBit synx = some true := by decide
theorem witness_HeaderVariants : (22 ≤ synx.length ∧ synBit synx = some true) ∧ (8 ≤ dataSeg.length ∧ synBit dataSeg = some false) ∧
    (4 ≤ (synx.take 4).length ∧ synBit (synx.take 4) = some true) ∧ ([] : List Byte).length < 4 := by decide
theorem witness_DecodeIsItsSubOperations : 4 ≤ (synx.take 4).length ∧ 4 ≤ (dataSeg.take 7).length ∧ (dataSeg.take 7).length < 8 ∧
    (synx.take 21).length < 22 := by decide

end Sys2Proof.Tests
end

/-! # Proofs about the state (10_state.md)

What `CSUM` and `DECODE` answer, said once for every buffer and every state: each ends in `respond` of a response that is a function of
the buffer. The statements on the registers, the common header and the request follow. -/

namespace Sys2Proof.Machine

/-! ## The checksum loop folds `SUM16` over `W(buf)` (R64, R65) -/

/-- The accumulator after the words of a list, one at a time from any value: `accumulate` from where the loop stands. -/
def accumulateFrom (acc : U16) (ws : List Nat) : U16 :=
  ws.foldl (fun acc w => sum16 acc (BitVec.ofNat 16 w)) acc

theorem accumulate_eq (ws : List Nat) : accumulate ws = accumulateFrom accInit ws := rfl

@[simp] theorem accumulateFrom_nil (acc : U16) : accumulateFrom acc [] = acc := rfl

@[simp] theorem accumulateFrom_cons (acc : U16) (w : Nat) (ws : List Nat) :
    accumulateFrom acc (w :: ws) = accumulateFrom (sum16 acc (BitVec.ofNat 16 w)) ws := rfl

theorem accumulateFrom_append (acc : U16) (ws ws' : List Nat) :
    accumulateFrom acc (ws ++ ws') = accumulateFrom (accumulateFrom acc ws) ws' := List.foldl_append

/-- The word `CSUM` reads at an even offset is the word of `W(buf)` there (R36). -/
theorem le16_eq_wholeWord (buf : List Byte) (k : Nat) (h : 2 * k + 1 < buf.length) :
    le16 buf[2 * k] buf[2 * k + 1] = BitVec.ofNat 16 (wholeWord buf k) := by
  have hk : wholeWord buf k = (le16 buf[2 * k] buf[2 * k + 1]).toNat := by
    simp [wholeWord, le16_toNat, h, Nat.lt_of_succ_lt h]
  rw [hk, BitVec.ofNat_toNat, BitVec.setWidth_eq]

/-- From word `k` on, with `n` whole words left and fuel for them, the loop folds exactly these words and stops at the last of them. -/
theorem csumWhile_remaining (buf : List Byte) (s : State) (n k fuel : Nat) (acc : U16)
    (hn : k + n = buf.length / 2) (hf : n ≤ fuel) :
    csumWhile fuel buf (setCur (2 * k) (setAcc acc s)) =
      .ok (setCur (2 * (buf.length / 2)) (setAcc (accumulateFrom acc ((List.range' k n).map (wholeWord buf))) s)) := by
  induction n generalizing k fuel acc with
  | zero =>
    rw [csumWhile_stop _ _ _ _ _ (by omega), ← hn]
    rfl
  | succ n ih =>
    obtain ⟨fuel, rfl⟩ : ∃ m, fuel = m + 1 := ⟨fuel - 1, by omega⟩
    have hk : 2 * k + 1 < buf.length := by omega
    rw [csumWhile_turn fuel buf s acc (2 * k) hk, le16_eq_wholeWord buf k hk]
    exact ih (k + 1) fuel _ (by omega) (by omega)

/-- The whole loop of R65: from `ACC_INIT` over the `floor(len/2)` whole words. -/
theorem csumWhile_eq (buf : List Byte) (s : State) :
    csumWhile buf.length buf (setCur 0 (setAcc accInit s)) =
      .ok (setCur (2 * (buf.length / 2))
        (setAcc (accumulate ((List.range (buf.length / 2)).map (wholeWord buf))) s)) := by
  rw [List.range_eq_range']
  exact csumWhile_remaining buf s (buf.length / 2) 0 buf.length accInit (by omega) (by omega)

/-- Writing both registers leaves nothing of what they held. -/
theorem setCur_setAcc_overwrite (n n' : Nat) (v v' : U16) (s : State) :
    setCur n (setAcc v (setCur n' (setAcc v' s))) = setCur n (setAcc v s) := rfl

/-- The odd tail of R65: with `CUR` past the whole words, it folds the tail word, if there is one, and ends with `CUR = len`. -/
theorem csumTail_eq (buf : List Byte) (s : State) (acc : U16) :
    csumTail buf (setCur (2 * (buf.length / 2)) (setAcc acc s)) =
      .ok (setCur buf.length (setAcc (accumulateFrom acc (tailWord buf)) s)) := by
  by_cases hodd : buf.length % 2 = 1
  · have hcur : 2 * (buf.length / 2) = buf.length - 1 := by omega
    have hlt : buf.length - 1 < buf.length := by omega
    have hlen : buf.length - 1 + 1 = buf.length := by omega
    simp [csumTail, tailWord, hodd, hcur, hlt, hlen, valueOf, read8_eq_ok, zext16,
      setCur_setAcc_overwrite, bind, Except.bind, pure, Except.pure]
  · have hcur : 2 * (buf.length / 2) = buf.length := by omega
    simp [csumTail, tailWord, hodd, hcur, valueOf, bind, Except.bind, pure, Except.pure]

/-- The loop and the tail together: `CUR = len` and `ACC` the fold over `W(buf)` (R18, R65). -/
theorem csumTail_after_loop (buf : List Byte) (s : State) :
    csumTail buf (setCur (2 * (buf.length / 2))
        (setAcc (accumulate ((List.range (buf.length / 2)).map (wholeWord buf))) s)) =
      .ok (setCur buf.length (setAcc (accumulate (wordsOf buf)) s)) := by
  rw [csumTail_eq, accumulate_eq, accumulate_eq, wordsOf, accumulateFrom_append]

/-- `CSUM` from any state answers the complement of the fold over `W(buf)`, and that alone (R65). -/
theorem csumRun_eq (buf : List Byte) (s : State) :
    csumRun buf s = .ok (respond (.csum (csumResponse (not16 (accumulate (wordsOf buf))))) s) := by
  simp only [csumRun, csumWhile_eq, csumTail_after_loop, bind, Except.bind]
  rfl

theorem exec_csum_eq (buf : List Byte) (s : State) :
    exec (.csum buf) s = .next (respond (.csum (csumResponse (not16 (accumulate (wordsOf buf))))) s) :=
  congrArg settle (csumRun_eq buf s)

/-! ## The branches of `DECODE` (R73 to R75) -/

/-- The common header of a buffer of at least four bytes: bytes 0 to 3 (R24, R79). -/
def commonOf (buf : List Byte) (h : 4 ≤ buf.length) : CommonHeader :=
  { flags := flagsOf buf[0], headerLength := buf[1], sequenceNumber := buf[2], ackNumber := buf[3] }

theorem commonStep_eq_commonOf (buf : List Byte) (s : State) (h : 4 ≤ buf.length) :
    commonStep buf s = .ok (setCommon (commonOf buf h) (setFlags (flagsOf buf[0]) s)) := commonStep_eq_ok buf s h

theorem synBranch_short (buf : List Byte) (s : State) (h : buf.length < 22) :
    synBranch buf s = .ok (raise .tooShortForSyn s) := if_pos h

theorem dataBranch_short (buf : List Byte) (s : State) (h : buf.length < 8) :
    dataBranch buf s = .ok (raise .tooShortForCommon s) := if_pos h

/-- Past its gate the SYN branch returns the common header it was given and the extension of the buffer. -/
theorem synBranch_long (buf : List Byte) (s : State) (c : CommonHeader) (x : SynHeaderExtension) (h : 22 ≤ buf.length)
    (hx : synExtension buf = .ok x) :
    synBranch buf (setCommon c s) = .ok (respond (.decode (.ok (.syn c x))) s) := by
  simp only [synBranch, synGate, synMinLen, if_neg (Nat.not_lt.mpr h), extractExt, hx, bind, Except.bind]
  rfl

/-- Past its gate the other branch returns the common header it was given and the non-SYN header of the buffer. -/
theorem dataBranch_long (buf : List Byte) (s : State) (c : CommonHeader) (n : NonSynHeader) (h : 8 ≤ buf.length)
    (hn : nonSynHeader buf = .ok n) :
    dataBranch buf (setCommon c s) = .ok (respond (.decode (.ok (.data c n))) s) := by
  simp only [dataBranch, dataGate, dataMinLen, if_neg (Nat.not_lt.mpr h), extractNs, hn, bind, Except.bind]
  rfl

/-- The first gate of `DECODE` (R74). -/
theorem decodeRun_short (buf : List Byte) (s : State) (h : buf.length < 4) :
    decodeRun buf s = .ok (raise .tooShort s) := if_pos h

/-- Past the first gate `DECODE` extracts the common header and takes the branch of the SYN bit (R73). -/
theorem decodeRun_long (buf : List Byte) (s : State) (h : 4 ≤ buf.length) :
    decodeRun buf s =
      if (flagsOf buf[0]).syn then synBranch buf (setCommon (commonOf buf h) (setFlags (flagsOf buf[0]) s))
      else dataBranch buf (setCommon (commonOf buf h) (setFlags (flagsOf buf[0]) s)) := by
  simp only [decodeRun, commonLen, if_neg (Nat.not_lt.mpr h), commonStep_eq_commonOf buf s h, bind, Except.bind]
  rfl

/-- Everything `DECODE` of a buffer can answer, the same from every state: an error, or a header of either variant whose common part is
the first four bytes. -/
theorem decodeRun_cases (buf : List Byte) :
    (∃ e, ∀ s, decodeRun buf s = .ok (respond (.decode (.err e)) s)) ∨
    (∃ h x, ∀ s, decodeRun buf s = .ok (respond (.decode (.ok (.syn (commonOf buf h) x))) s)) ∨
    (∃ h n, ∀ s, decodeRun buf s = .ok (respond (.decode (.ok (.data (commonOf buf h) n))) s)) := by
  by_cases h4 : 4 ≤ buf.length
  · by_cases hsyn : (flagsOf buf[0]).syn = true
    · by_cases h22 : 22 ≤ buf.length
      · obtain ⟨x, hx⟩ : ∃ x, synExtension buf = .ok x := ⟨_, synExtension_eq_ok buf h22⟩
        refine .inr (.inl ⟨h4, x, fun s => ?_⟩)
        rw [decodeRun_long buf s h4, if_pos hsyn, synBranch_long buf _ _ x h22 hx, respond_setFlags]
      · refine .inl ⟨.tooShortForSyn, fun s => ?_⟩
        rw [decodeRun_long buf s h4, if_pos hsyn, synBranch_short buf _ (Nat.not_le.mp h22), raise_eq_respond,
          respond_setCommon, respond_setFlags]
    · by_cases h8 : 8 ≤ buf.length
      · obtain ⟨n, hn⟩ : ∃ n, nonSynHeader buf = .ok n := ⟨_, nonSynHeader_eq_ok buf h8⟩
        refine .inr (.inr ⟨h4, n, fun s => ?_⟩)
        rw [decodeRun_long buf s h4, if_neg hsyn, dataBranch_long buf _ _ n h8 hn, respond_setFlags]
      · refine .inl ⟨.tooShortForCommon, fun s => ?_⟩
        rw [decodeRun_long buf s h4, if_neg hsyn, dataBranch_short buf _ (Nat.not_le.mp h8), raise_eq_respond,
          respond_setCommon, respond_setFlags]
  · exact .inl ⟨.tooShort, fun s => decodeRun_short buf s (Nat.not_le.mp h4)⟩

/-- `DECODE` from any state answers one result, which is a function of the buffer (R73). -/
theorem exists_exec_decode_eq (buf : List Byte) :
    ∃ r : DecodeResult, ∀ s, exec (.decode buf) s = .next (respond (.decode r) s) := by
  obtain ⟨e, he⟩ | ⟨h, x, hx⟩ | ⟨h, n, hn⟩ := decodeRun_cases buf
  · exact ⟨_, fun s => congrArg settle (he s)⟩
  · exact ⟨_, fun s => congrArg settle (hx s)⟩
  · exact ⟨_, fun s => congrArg settle (hn s)⟩

/-- If `DECODE` answers `Ok`, its common header is that of the first four bytes. -/
theorem common_eq_commonOf (buf : List Byte) (s t : State) (c : CommonHeader) (ht : exec (.decode buf) s = .next t)
    (hc : (∃ n, t.response = some (.decode (.ok (.data c n)))) ∨ (∃ x, t.response = some (.decode (.ok (.syn c x))))) :
    ∃ h, c = commonOf buf h := by
  have answer : ∀ r, decodeRun buf s = .ok (respond r s) → t.response = some r := fun r hr => by
    have hnext : exec (.decode buf) s = .next (respond r s) := congrArg settle hr
    rw [ht] at hnext
    cases hnext
    rfl
  obtain ⟨e, he⟩ | ⟨h, x, hx⟩ | ⟨h, n, hn⟩ := decodeRun_cases buf
  · simp [answer _ (he s)] at hc
  · simp only [answer _ (hx s)] at hc
    exact ⟨h, by simpa [eq_comm] using hc⟩
  · simp only [answer _ (hn s)] at hc
    exact ⟨h, by simpa [eq_comm] using hc⟩

/-- A buffer of at least four bytes, taken apart: its first four bytes are those of its common header. -/
theorem eq_cons_of_four_le (buf : List Byte) (h : 4 ≤ buf.length) :
    buf = (commonOf buf h).flags.raw :: (commonOf buf h).headerLength :: (commonOf buf h).sequenceNumber ::
      (commonOf buf h).ackNumber :: buf.drop 4 := by
  match buf, h with
  | _ :: _ :: _ :: _ :: _, _ => rfl

/-! ## A transaction answers its request and keeps nothing else (R12, R13) -/

/-- Both operations end in one response, a function of the request, whatever the state. -/
theorem exists_exec_decodeOp_eq (op : BitVec 1) (buf : List Byte) :
    ∃ r : Response, ∀ s, exec (decodeOp op buf) s = .next (respond r s) := by
  by_cases hop : op = 0
  · exact ⟨_, fun s => by rw [decodeOp, if_pos hop, exec_csum_eq]⟩
  · obtain ⟨r, hr⟩ := exists_exec_decode_eq buf
    exact ⟨.decode r, fun s => by rw [decodeOp, if_neg hop, hr]⟩

/-- A response leaves of the state before it the memory and the request only. -/
theorem respond_congr (r : Response) (s1 s2 : State) (hmem : s1.mem = s2.mem) (hreq : s1.request = s2.request) :
    respond r s1 = respond r s2 := by
  simp [respond, hmem, hreq]

theorem step_of_reject (s : State) (r : Request) (why : Reject) (hr : s.request = some r)
    (hd : decodeRequest r s.mem = .error why) : step s = .refused (.notARequest why) := by
  simp only [step, hr, hd]

theorem step_of_exec (s t : State) (r : Request) (i : Instr) (hr : s.request = some r)
    (hi : decodeRequest r s.mem = .ok i) (ht : exec i s = .next t) : step s = .next (endTransaction t) := by
  simp only [step, hr, hi, ht]

/-! ## The statements -/

/-- Settles O11: a launch is refused by its words alone, and an operation ends in a response that is a function of its request. -/
theorem transactionDependsOnRequestAlone : Obligations.TransactionDependsOnRequestAlone := by
  intro s1 s2 hmem hreq hsome
  obtain ⟨r, hr1⟩ := Option.ne_none_iff_exists'.mp hsome
  have hr2 : s2.request = some r := hreq ▸ hr1
  cases hd : decodeRequest r s1.mem with
  | error why => rw [step_of_reject s1 r why hr1 hd, step_of_reject s2 r why hr2 (hmem ▸ hd)]
  | ok i =>
    obtain ⟨buf, -, -, rfl⟩ := decodeRequest_cases r s1.mem i hd
    obtain ⟨resp, hexec⟩ := exists_exec_decodeOp_eq r.op buf
    rw [step_of_exec s1 _ r _ hr1 hd (hexec s1), step_of_exec s2 _ r _ hr2 (hmem ▸ hd) (hexec s2),
      respond_congr resp s1 s2 hmem hreq]

/-- Settles O23, from the loop over the whole words followed by the odd tail. -/
theorem csumRegistersAtTheEndOfTheLoop : Obligations.CsumRegistersAtTheEndOfTheLoop := by
  intro buf s
  exact ⟨_, _, _, csumWhile_eq buf s, csumTail_after_loop buf s, rfl, rfl, exec_csum_eq buf s, rfl, rfl⟩

/-- Settles O34: in both branches that answer `Ok` the common header is the one step 1 extracted. -/
theorem decodeCommonHeaderIsTheFirstFourBytes : Obligations.DecodeCommonHeaderIsTheFirstFourBytes := by
  intro buf s t c ht hc
  obtain ⟨h, rfl⟩ := common_eq_commonOf buf s t c ht hc
  exact ⟨_, _, _, _, _, eq_cons_of_four_le buf h, rfl, rfl, rfl, rfl⟩

end Sys2Proof.Machine

/-! # Proofs about the memory (20_memory.md)

What a completed instruction can have done to the state, said once for all thirteen: it wrote operation-local registers, or it answered.
That no instruction stores is read off this. -/

namespace Sys2Proof.Machine

/-! ## What an instruction can do to the state -/

/-- The two things a completed instruction can have done: written operation-local registers only (a sub-operation or `SUM16`; logs 4, 11),
or ended in a response with which no register keeps a value (R12). Neither has an argument for the memory or the request. -/
inductive Performed (s : State) : State → Prop where
  | wroteLocals (l : Locals) : Performed s { s with locals := l }
  | answered (r : Response) : Performed s (respond r s)

theorem Performed.mem_eq {s t : State} (h : Performed s t) : t.mem = s.mem := by
  cases h <;> rfl

theorem Performed.request_eq {s t : State} (h : Performed s t) : t.request = s.request := by
  cases h <;> rfl

theorem Performed.response_cases {s t : State} (h : Performed s t) :
    t.response = s.response ∨ ∃ r, t = { s with response := some r, locals := Locals.empty } := by
  cases h with
  | wroteLocals l => exact .inl rfl
  | answered r => exact .inr ⟨r, rfl⟩

/-- The instruction goes on from `s`, to a state that `Performed` allows. -/
def Completes (s : State) (o : Host.Outcome State Fault Refusal) : Prop := ∃ t, o = .next t ∧ Performed s t

theorem completes_answered (r : Response) (s : State) : Completes s (.next (respond r s)) := ⟨_, rfl, .answered r⟩

/-! ## Gates and extractions -/

/-- Every gate of `DECODE` raises below its length (R74, R75), so only what lies behind it is left to look at. -/
theorem completes_gate (n : Nat) (e : DecodeError) (buf : List Byte) (s : State) (go : Except Fault State)
    (h : n ≤ buf.length → Completes s (settle go)) :
    Completes s (settle (if buf.length < n then .ok (raise e s) else go)) := by
  split
  · exact completes_answered (.decode (.err e)) s
  · next hn => exact h (Nat.not_lt.mp hn)

/-- The first gate comes before a guarded step too (R74; log 10). -/
theorem guarded_short (want : Bool) (body : List Byte → State → Except Fault State) (buf : List Byte) (s : State)
    (h : buf.length < 4) : guarded want body buf s = .ok (raise .tooShort s) := if_pos h

/-- Past the first gate a guarded step runs on the shape it belongs to, and changes nothing on the other (log 10). -/
theorem guarded_long (want : Bool) (body : List Byte → State → Except Fault State) (buf : List Byte) (s : State)
    (h : 4 ≤ buf.length) :
    guarded want body buf s = if (flagsOf buf[0]).syn = want then body buf s else .ok s := by
  simp only [guarded, commonLen, if_neg (Nat.not_lt.mpr h), read8_eq_ok buf 0 (by omega), bind, Except.bind]
  rfl

theorem completes_guarded (want : Bool) (body : List Byte → State → Except Fault State) (buf : List Byte) (s : State)
    (hbody : (h : 4 ≤ buf.length) → (flagsOf buf[0]).syn = want → Completes s (settle (body buf s))) :
    Completes s (settle (guarded want body buf s)) := by
  by_cases h4 : 4 ≤ buf.length
  · rw [guarded_long want body buf s h4]
    split
    · next hshape => exact hbody h4 hshape
    · exact ⟨s, rfl, .wroteLocals s.locals⟩
  · rw [guarded_short want body buf s (Nat.not_le.mp h4)]
    exact completes_answered (.decode (.err .tooShort)) s

/-- Step 1 writes `flags` and `common` and nothing else (log 4). -/
theorem completes_commonStep (buf : List Byte) (s : State) (h : 4 ≤ buf.length) :
    Completes s (settle (commonStep buf s)) :=
  ⟨_, congrArg settle (commonStep_eq_ok buf s h), .wroteLocals _⟩

theorem extractExt_eq_ok (buf : List Byte) (s : State) (x : SynHeaderExtension) (hx : synExtension buf = .ok x) :
    extractExt buf s = .ok (setExt x s) := by
  simp only [extractExt, hx, bind, Except.bind]
  rfl

theorem extractNs_eq_ok (buf : List Byte) (s : State) (n : NonSynHeader) (hn : nonSynHeader buf = .ok n) :
    extractNs buf s = .ok (setNs n s) := by
  simp only [extractNs, hn, bind, Except.bind]
  rfl

theorem completes_extractExt (buf : List Byte) (s : State) (h : 22 ≤ buf.length) :
    Completes s (settle (extractExt buf s)) :=
  ⟨_, congrArg settle (extractExt_eq_ok buf s _ (synExtension_eq_ok buf h)), .wroteLocals _⟩

theorem completes_extractNs (buf : List Byte) (s : State) (h : 8 ≤ buf.length) :
    Completes s (settle (extractNs buf s)) :=
  ⟨_, congrArg settle (extractNs_eq_ok buf s _ (nonSynHeader_eq_ok buf h)), .wroteLocals _⟩

/-! ## The two header variants are `DECODE` on their own shape (R55) -/

theorem synBranch_after_commonStep (buf : List Byte) (s : State) (h : 4 ≤ buf.length) (hsyn : (flagsOf buf[0]).syn = true) :
    (do synBranch buf (← commonStep buf s)) = decodeRun buf s := by
  rw [decodeRun_long buf s h, if_pos hsyn, commonStep_eq_commonOf buf s h]
  rfl

theorem dataBranch_after_commonStep (buf : List Byte) (s : State) (h : 4 ≤ buf.length) (hsyn : (flagsOf buf[0]).syn = false) :
    (do dataBranch buf (← commonStep buf s)) = decodeRun buf s := by
  rw [decodeRun_long buf s h, hsyn, commonStep_eq_commonOf buf s h]
  rfl

theorem completes_decodeRun (buf : List Byte) (s : State) : Completes s (settle (decodeRun buf s)) := by
  obtain ⟨r, hr⟩ := exists_exec_decode_eq buf
  exact ⟨_, hr s, .answered (.decode r)⟩

/-! ## Every instruction -/

/-- Every instruction goes on from every state, having written registers only or answered (R12, R32, R42). -/
theorem exec_completes (i : Instr) (s : State) : Completes s (exec i s) := by
  cases i with
  | csum buf => exact ⟨_, exec_csum_eq buf s, .answered _⟩
  | verify buf => exact ⟨_, exec_csum_eq buf s, .answered _⟩
  | sum16 a b => exact ⟨_, rfl, .wroteLocals _⟩
  | decode buf => exact completes_decodeRun buf s
  | hdrSyn buf =>
    refine completes_guarded true _ buf s fun h4 hsyn => ?_
    rw [synBranch_after_commonStep buf s h4 hsyn]
    exact completes_decodeRun buf s
  | hdrData buf =>
    refine completes_guarded false _ buf s fun h4 hsyn => ?_
    rw [dataBranch_after_commonStep buf s h4 hsyn]
    exact completes_decodeRun buf s
  | decodeCommon buf => exact completes_gate commonLen .tooShort buf s _ (completes_commonStep buf s)
  | decodeFlags raw => exact ⟨_, rfl, .wroteLocals _⟩
  | decodeSynext buf =>
    exact completes_guarded true _ buf s fun _ _ =>
      completes_gate synMinLen .tooShortForSyn buf s _ (completes_extractExt buf s)
  | decodeNonsyn buf =>
    exact completes_guarded false _ buf s fun _ _ =>
      completes_gate dataMinLen .tooShortForCommon buf s _ (completes_extractNs buf s)
  | errTooShort => exact completes_answered _ s
  | errTooShortForCommon => exact completes_answered _ s
  | errTooShortForSyn => exact completes_answered _ s

theorem performed_of_exec {i : Instr} {s t : State} (h : exec i s = .next t) : Performed s t := by
  obtain ⟨u, hu, hp⟩ := exec_completes i s
  cases hu.symm.trans h
  exact hp

/-- A step keeps the memory: it waits, or ends the transaction of one instruction (R42). -/
theorem step_mem_eq {s t : State} (h : step s = .next t) : t.mem = s.mem := by
  obtain ⟨-, rfl⟩ | ⟨r, i, u, -, -, hu, rfl⟩ := step_cases s t h
  · rfl
  · rw [endTransaction_mem, (performed_of_exec hu).mem_eq]

/-! ## The statements -/

/-- Settles O13: neither writing registers nor answering touches the memory, nor does ending the transaction. -/
theorem blockStoresNothing : Obligations.BlockStoresNothing := by
  refine ⟨fun i s t h a => ?_, fun s t h => ⟨step_mem_eq h, fun a => ?_⟩⟩
  · rw [(performed_of_exec h).mem_eq]
  · rw [step_mem_eq h]

/-- Settles O14, from the two things an instruction can have done. -/
theorem everyInstructionFrame : Obligations.EveryInstructionFrame := by
  intro i s t h
  have hp : Performed s t := performed_of_exec h
  exact ⟨hp.mem_eq, hp.request_eq, hp.response_cases⟩

end Sys2Proof.Machine

/-! # Proofs about the encoding (30_encoding.md)

What the decoder reads from each of the three word spaces of section 8, said once for a space: a request names its operation, a header
its shape, a status its error. Both directions of decode and encode are read off this, and the header variants are tied to `DECODE` by
the same SYN bit. -/

namespace Sys2Proof.Machine

/-! ## Requests (R48, R49) -/

/-- The request with code `op` on a buffer is read back as the operation `op` on that buffer (R48; D4). -/
theorem decodeWords_requestWords (op : BitVec 1) (buf : List Byte) :
    decodeWords (requestWords op buf) = .ok (decodeOp op buf) := by
  simp [decodeWords, requestWords, decodeRequest, bufferOf_cellsOf, Config.admits, Config.maxLen]

/-- A request that decodes is the one request with its code on the buffer its memory holds (R14, R48). -/
theorem request_eq_requestWords (r : Request) (cells : List Host.Cell) (i : Instr) (h : decodeRequest r cells = .ok i) :
    ∃ buf, Words.request r cells = requestWords r.op buf ∧ i = decodeOp r.op buf := by
  obtain ⟨buf, hbuf, hlen, hi⟩ := decodeRequest_cases r cells i h
  exact ⟨buf, by rw [requestWords, ← hlen, ← cellsOf_bufferOf cells buf hbuf], hi⟩

/-- The one bit of `op` leaves two operations and no reserved code (R48). -/
theorem decodeOp_cases (op : BitVec 1) (buf : List Byte) :
    (op = 0 ∧ decodeOp op buf = .csum buf) ∨ (op = 1 ∧ decodeOp op buf = .decode buf) := by
  obtain rfl | rfl : op = 0 ∨ op = 1 := by revert op; decide
  · exact .inl ⟨rfl, rfl⟩
  · exact .inr ⟨rfl, rfl⟩

/-- Both operations are the words they are read from, own them, and take a buffer of any length (R7, R48). -/
theorem encode_owner_wf_decodeOp (op : BitVec 1) (buf : List Byte) :
    encode (decodeOp op buf) = some (requestWords op buf) ∧ (decodeOp op buf).owner = decodeOp op buf ∧
      (decodeOp op buf).wf = true := by
  obtain ⟨rfl, hop⟩ | ⟨rfl, hop⟩ := decodeOp_cases op buf <;> rw [hop] <;> exact ⟨rfl, rfl, rfl⟩

/-! ## Header shapes (R51, R55) -/

/-- The mask of R55 selects the SYN bit. -/
theorem and_0x80_eq_iff (b : Byte) : b &&& 0x80 = 0x80 ↔ b.getLsbD 7 = true := by
  have hmask : b &&& 0x80 = if b.getLsbD 7 then 0x80 else 0 := BitVec.and_twoPow b 7
  rw [hmask]
  cases b.getLsbD 7 <;> decide

@[simp] theorem synBit_nil : synBit [] = none := rfl

@[simp] theorem synBit_cons (b : Byte) (bs : List Byte) : synBit (b :: bs) = some (b.getLsbD 7) := rfl

/-- The SYN bit of a buffer is the SYN view of its flag byte (R25, R51). -/
theorem synBit_eq_flagsOf (buf : List Byte) (h : 0 < buf.length) : synBit buf = some (flagsOf buf[0]).syn := by
  match buf, h with
  | _ :: _, _ => rfl

theorem shapeOf_syn (buf : List Byte) (h : synBit buf = some true) : shapeOf buf = .hdrSyn buf := if_pos h

theorem shapeOf_data (buf : List Byte) (h : synBit buf = some false) : shapeOf buf = .hdrData buf :=
  if_neg (by simp [h])

/-- A header decodes exactly when it has a byte 0, to the shape its SYN bit tells (R55). -/
theorem decodeHeader_eq_ok_iff (buf : List Byte) (i : Instr) :
    decodeHeader buf = .ok i ↔ buf ≠ [] ∧ i = shapeOf buf := by
  cases buf with
  | nil => simp [decodeHeader]
  | cons b bs =>
    simp only [decodeHeader, shapeOf, and_0x80_eq_iff, synBit_cons, Option.some.injEq]
    split <;> simp [eq_comm]

/-- A buffer with a SYN bit has a byte 0, so it decodes to its shape. -/
theorem decodeHeader_of_synBit (buf : List Byte) (want : Bool) (h : synBit buf = some want) :
    decodeHeader buf = .ok (shapeOf buf) :=
  (decodeHeader_eq_ok_iff buf _).mpr ⟨by rintro rfl; simp at h, rfl⟩

theorem decodeHeader_syn (buf : List Byte) (h : synBit buf = some true) : decodeHeader buf = .ok (.hdrSyn buf) :=
  shapeOf_syn buf h ▸ decodeHeader_of_synBit buf true h

theorem decodeHeader_data (buf : List Byte) (h : synBit buf = some false) : decodeHeader buf = .ok (.hdrData buf) :=
  shapeOf_data buf h ▸ decodeHeader_of_synBit buf false h

/-- Whichever shape a buffer has, the buffer is its words and the shape owns them. -/
theorem encode_owner_shapeOf (buf : List Byte) :
    encode (shapeOf buf) = some (.header buf) ∧ (shapeOf buf).owner = shapeOf buf := by
  unfold shapeOf
  split <;> exact ⟨rfl, rfl⟩

/-! ## Well-formedness of the steps of `DECODE`, with `MAX_LEN` unbounded (R7, R74, R75) -/

theorem wf_hdrSyn_iff (buf : List Byte) : (Instr.hdrSyn buf).wf = true ↔ synBit buf = some true ∧ 22 ≤ buf.length := by
  simp [Instr.wf, Instr.wfFor, Config.admits, Config.maxLen]

theorem wf_hdrData_iff (buf : List Byte) : (Instr.hdrData buf).wf = true ↔ synBit buf = some false ∧ 8 ≤ buf.length := by
  simp [Instr.wf, Instr.wfFor, Config.admits, Config.maxLen]

theorem wf_decodeSynext_iff (buf : List Byte) :
    (Instr.decodeSynext buf).wf = true ↔ synBit buf = some true ∧ 22 ≤ buf.length := wf_hdrSyn_iff buf

theorem wf_decodeNonsyn_iff (buf : List Byte) :
    (Instr.decodeNonsyn buf).wf = true ↔ synBit buf = some false ∧ 8 ≤ buf.length := wf_hdrData_iff buf

theorem wf_decodeCommon_iff (buf : List Byte) : (Instr.decodeCommon buf).wf = true ↔ 4 ≤ buf.length := by
  simp [Instr.wf, Instr.wfFor, Config.admits, Config.maxLen]

/-! ## Error outcomes (R59) -/

/-- Everything the decoder can read from a status: the three errors, each by its own code (R59; D6). -/
theorem decodeStatus_cases (code : BitVec 2) (i : Instr) (h : decodeStatus code = .ok i) :
    (code = 1 ∧ i = .errTooShort) ∨ (code = 2 ∧ i = .errTooShortForCommon) ∨ (code = 3 ∧ i = .errTooShortForSyn) := by
  unfold decodeStatus at h
  split at h
  · next hcode => exact .inl ⟨hcode, (Except.ok.inj h).symm⟩
  · split at h
    · next hcode => exact .inr (.inl ⟨hcode, (Except.ok.inj h).symm⟩)
    · split at h
      · next hcode => exact .inr (.inr ⟨hcode, (Except.ok.inj h).symm⟩)
      · cases h

/-! ## Decode after encode -/

/-- The words of a well-formed instruction decode to their owner. Well-formedness is what gives a sub-operation of `DECODE` a byte 0 of
its own shape. -/
theorem decodeWords_of_encode (i : Instr) (w : Words) (hwf : i.wf = true) (hw : encode i = some w) :
    decodeWords w = .ok i.owner := by
  cases i with
  | csum buf => cases hw; exact decodeWords_requestWords 0 buf
  | decode buf => cases hw; exact decodeWords_requestWords 1 buf
  | verify buf => cases hw; exact decodeWords_requestWords 0 buf
  | sum16 a b => cases hw
  | hdrData buf => cases hw; exact decodeHeader_data buf ((wf_hdrData_iff buf).mp hwf).1
  | hdrSyn buf => cases hw; exact decodeHeader_syn buf ((wf_hdrSyn_iff buf).mp hwf).1
  | decodeCommon buf =>
    cases hw
    have hlen : 4 ≤ buf.length := (wf_decodeCommon_iff buf).mp hwf
    exact decodeHeader_of_synBit buf _ (synBit_eq_flagsOf buf (by omega))
  | decodeFlags raw => cases hw; exact decodeHeader_of_synBit [raw] _ (synBit_cons raw [])
  | decodeSynext buf => cases hw; exact decodeHeader_syn buf ((wf_decodeSynext_iff buf).mp hwf).1
  | decodeNonsyn buf => cases hw; exact decodeHeader_data buf ((wf_decodeNonsyn_iff buf).mp hwf).1
  | errTooShort => cases hw; rfl
  | errTooShortForCommon => cases hw; rfl
  | errTooShortForSyn => cases hw; rfl

/-! ## The header variants are branches of `DECODE` (R55, R73) -/

/-- Past the SYN gate `DECODE` answers the common header and the extension of the buffer (R73, R84). -/
theorem decodeRun_syn (buf : List Byte) (s : State) (x : SynHeaderExtension) (h : 22 ≤ buf.length)
    (hsyn : synBit buf = some true) (hx : synExtension buf = .ok x) :
    decodeRun buf s = .ok (respond (.decode (.ok (.syn (commonOf buf (by omega)) x))) s) := by
  rw [synBit_eq_flagsOf buf (by omega), Option.some.injEq] at hsyn
  rw [decodeRun_long buf s (by omega), if_pos hsyn, synBranch_long buf _ _ x h hx, respond_setFlags]

/-- Past the gate of the other shape `DECODE` answers the common header and the non-SYN header of the buffer (R73, R101). -/
theorem decodeRun_data (buf : List Byte) (s : State) (n : NonSynHeader) (h : 8 ≤ buf.length)
    (hsyn : synBit buf = some false) (hn : nonSynHeader buf = .ok n) :
    decodeRun buf s = .ok (respond (.decode (.ok (.data (commonOf buf (by omega)) n))) s) := by
  rw [synBit_eq_flagsOf buf (by omega), Option.some.injEq] at hsyn
  rw [decodeRun_long buf s (by omega), if_neg (by simp [hsyn]), dataBranch_long buf _ _ n h hn, respond_setFlags]

/-- A guarded step that is `DECODE` on its own shape is `DECODE` also below the first gate, where both raise `TooShort` (R74; log 10). -/
theorem guarded_eq_decodeRun (want : Bool) (body : List Byte → State → Except Fault State) (buf : List Byte) (s : State)
    (hbody : (h : 4 ≤ buf.length) → (flagsOf buf[0]).syn = want → body buf s = decodeRun buf s)
    (h : synBit buf = some want ∨ buf.length < 4) : guarded want body buf s = decodeRun buf s := by
  by_cases h4 : 4 ≤ buf.length
  · have hshape : synBit buf = some want := h.resolve_right (Nat.not_lt.mpr h4)
    rw [synBit_eq_flagsOf buf (by omega), Option.some.injEq] at hshape
    rw [guarded_long want body buf s h4, if_pos hshape, hbody h4 hshape]
  · rw [guarded_short want body buf s (Nat.not_le.mp h4), decodeRun_short buf s (Nat.not_le.mp h4)]

/-- On a buffer of the other shape a guarded step does not run (log 10). -/
theorem guarded_other_shape (want : Bool) (body : List Byte → State → Except Fault State) (buf : List Byte) (s : State)
    (h : 4 ≤ buf.length) (hshape : synBit buf = some (!want)) : guarded want body buf s = .ok s := by
  rw [synBit_eq_flagsOf buf (by omega), Option.some.injEq] at hshape
  rw [guarded_long want body buf s h, if_neg (by simp [hshape])]

theorem exec_hdrSyn_eq_decode (buf : List Byte) (s : State) (h : synBit buf = some true ∨ buf.length < 4) :
    exec (.hdrSyn buf) s = exec (.decode buf) s :=
  congrArg settle (guarded_eq_decodeRun true _ buf s (synBranch_after_commonStep buf s) h)

theorem exec_hdrData_eq_decode (buf : List Byte) (s : State) (h : synBit buf = some false ∨ buf.length < 4) :
    exec (.hdrData buf) s = exec (.decode buf) s :=
  congrArg settle (guarded_eq_decodeRun false _ buf s (dataBranch_after_commonStep buf s) h)

/-! ## The statements -/

/-- Settles O2: the owner map is the identity but on `VERIFY` and the sub-operations of `DECODE`, and `SUM16` has no words. -/
theorem decodeOfEncodeIsOwner : Obligations.DecodeOfEncodeIsOwner :=
  ⟨decodeWords_of_encode, fun _ => ⟨rfl, rfl, rfl, rfl, rfl⟩, ⟨rfl, rfl, rfl⟩, fun _ _ => rfl⟩

/-- Settles O3, one word space at a time: what decodes there is an operation, a shape or an error, and each owns its words. -/
theorem encodeOfDecodeIsTheWords : Obligations.EncodeOfDecodeIsTheWords := by
  intro w i h
  cases w with
  | request r cells =>
    obtain ⟨buf, hw, rfl⟩ := request_eq_requestWords r cells i h
    obtain ⟨henc, howner, hwf⟩ := encode_owner_wf_decodeOp r.op buf
    exact ⟨hw ▸ henc, howner, fun _ => hwf⟩
  | header buf =>
    obtain ⟨-, rfl⟩ := (decodeHeader_eq_ok_iff buf i).mp h
    obtain ⟨henc, howner⟩ := encode_owner_shapeOf buf
    exact ⟨henc, howner, by simp⟩
  | status code =>
    obtain ⟨rfl, rfl⟩ | ⟨rfl, rfl⟩ | ⟨rfl, rfl⟩ := decodeStatus_cases code i h
    all_goals exact ⟨rfl, rfl, by simp⟩

/-- Settles O44: both variants are the same guarded `DECODE`, each with its own SYN bit. -/
theorem headerVariantsAreTheBranchesOfDecode : Obligations.HeaderVariantsAreTheBranchesOfDecode := by
  intro buf s
  refine ⟨fun h22 hsyn => ?_, fun h8 hsyn => ?_, exec_hdrSyn_eq_decode buf s, exec_hdrData_eq_decode buf s,
    fun h4 hsyn => congrArg settle (guarded_other_shape true _ buf s h4 hsyn),
    fun h4 hsyn => congrArg settle (guarded_other_shape false _ buf s h4 hsyn)⟩
  · rw [exec_hdrSyn_eq_decode buf s (.inl hsyn)]
    exact ⟨_, _, congrArg settle (decodeRun_syn buf s _ h22 hsyn (synExtension_eq_ok buf h22))⟩
  · rw [exec_hdrData_eq_decode buf s (.inl hsyn)]
    exact ⟨_, _, congrArg settle (decodeRun_data buf s _ h8 hsyn (nonSynHeader_eq_ok buf h8))⟩

/-- Settles O5: two written-out requests, one header of each shape, and the four status codes. -/
theorem writtenOutWordsDecode : Obligations.WrittenOutWordsDecode :=
  ⟨decodeWords_requestWords 0 [0x34], decodeWords_requestWords 1 [0x80, 0x10, 0x05], decodeHeader_syn [0x80] rfl,
    decodeHeader_data [0x7F] rfl, rfl, rfl, rfl, rfl⟩

end Sys2Proof.Machine

/-! # Proofs about the checksum engine (40_checksum_engine.md)

`rep` of R63 is the arithmetic of the engine: `SUM16` is `rep` of the sum, so the accumulator is `rep` of the words so far and `CSUM` is
`0xFFFF - rep(S)`. What the statements say of buffers is then about the ordinary sum `S`, which is read off a buffer two bytes at a time. -/

namespace Sys2Proof.Machine

/-! ## The representative of a sum (R63) -/

theorem rep_of_pos (n : Nat) (h : 0 < n) : rep n = (n - 1) % 0xFFFF + 1 := if_neg (by omega)

theorem rep_le (n : Nat) : rep n ≤ 0xFFFF := by
  unfold rep
  split <;> omega

theorem rep_of_le (n : Nat) (h : n ≤ 0xFFFF) : rep n = n := by
  unfold rep
  split <;> omega

theorem rep_eq_zero_iff (n : Nat) : rep n = 0 ↔ n = 0 := by
  unfold rep
  split <;> omega

theorem rep_eq_max_iff (n : Nat) : rep n = 0xFFFF ↔ 0 < n ∧ 0xFFFF ∣ n := by
  unfold rep
  split <;> omega

/-- Folding a part of a sum first does not change its representative: what makes `SUM16` associative (R63 (c)). -/
theorem rep_rep_add (m n : Nat) : rep (rep m + n) = rep (m + n) := by
  unfold rep
  split
  · next hm => rw [hm]
  · next hm =>
    rw [if_neg (by omega), if_neg (by omega)]
    omega

theorem rep_add_rep (m n : Nat) : rep (m + rep n) = rep (m + n) := by
  rw [Nat.add_comm m, rep_rep_add, Nat.add_comm]

/-- Adding the complement of the representative gives all ones: the arithmetic of sealing (R63 (g), R70). -/
theorem rep_add_complement (n : Nat) : rep (n + (0xFFFF - rep n)) = 0xFFFF := by
  have hle : rep n ≤ 0xFFFF := rep_le n
  rw [← rep_rep_add, Nat.add_sub_cancel' hle]
  rfl

/-! ## `SUM16` is the representative of the sum (R61, R62) -/

/-- The fold of R61: the low half and what stands above bit 16. -/
theorem fold_eq (n : Nat) : (n &&& 0xFFFF) + (n >>> 16) = n % 65536 + n / 65536 := by
  rw [show 0xFFFF = 2 ^ 16 - 1 from rfl, Nat.and_two_pow_sub_one_eq_mod, Nat.shiftRight_eq_div_pow]

/-- One fold of a sum of two words is its representative; there is no second carry (R62, R63 (a)). -/
theorem fold_eq_rep (n : Nat) (h : n ≤ 0x1FFFE) : (n &&& 0xFFFF) + (n >>> 16) = rep n := by
  rw [fold_eq]
  unfold rep
  split <;> omega

theorem add_toNat_le (a b : U16) : a.toNat + b.toNat ≤ 0x1FFFE := by
  have ha := a.isLt
  have hb := b.isLt
  omega

theorem fold_add_eq_rep (a b : U16) :
    ((a.toNat + b.toNat) &&& 0xFFFF) + ((a.toNat + b.toNat) >>> 16) = rep (a.toNat + b.toNat) :=
  fold_eq_rep _ (add_toNat_le a b)

/-- The value of `SUM16`: its 16 bits hold the whole fold. -/
theorem sum16_toNat (a b : U16) : (sum16 a b).toNat = rep (a.toNat + b.toNat) := by
  have hle : rep (a.toNat + b.toNat) ≤ 0xFFFF := rep_le _
  rw [sum16, fold_add_eq_rep, BitVec.toNat_ofNat, Nat.mod_eq_of_lt (by omega)]

theorem ones_toNat : (0xFFFF : U16).toNat = 0xFFFF := rfl

theorem zero_toNat : (0x0000 : U16).toNat = 0 := rfl

theorem not16_toNat (v : U16) : (not16 v).toNat = 0xFFFF - v.toNat := BitVec.toNat_not

/-- R63 (c), the value of both groupings. -/
theorem sum16_sum16_toNat (a b c : U16) : (sum16 a (sum16 b c)).toNat = rep (a.toNat + b.toNat + c.toNat) := by
  rw [sum16_toNat, sum16_toNat, rep_add_rep, Nat.add_assoc]

theorem sum16_comm (a b : U16) : sum16 a b = sum16 b a :=
  BitVec.eq_of_toNat_eq (by rw [sum16_toNat, sum16_toNat, Nat.add_comm])

theorem sum16_assoc (a b c : U16) : sum16 (sum16 a b) c = sum16 a (sum16 b c) :=
  BitVec.eq_of_toNat_eq (by rw [sum16_sum16_toNat, sum16_toNat, sum16_toNat, rep_rep_add])

theorem sum16_zero (a : U16) : sum16 a 0x0000 = a :=
  BitVec.eq_of_toNat_eq (by rw [sum16_toNat]; exact rep_of_le a.toNat (Nat.le_of_lt_succ a.isLt))

/-- R63 (e): all ones is a second zero for every operand but zero itself. -/
theorem sum16_ones (a : U16) (h : a ≠ 0x0000) : sum16 a 0xFFFF = a := by
  have hpos : a.toNat ≠ 0 := fun h0 => h (BitVec.eq_of_toNat_eq h0)
  have hlt := a.isLt
  apply BitVec.eq_of_toNat_eq
  rw [sum16_toNat, ones_toNat, rep_of_pos _ (by omega)]
  omega

theorem sum16_eq_zero_iff (a b : U16) : sum16 a b = 0x0000 ↔ a = 0x0000 ∧ b = 0x0000 := by
  rw [← BitVec.toNat_inj, ← BitVec.toNat_inj, ← BitVec.toNat_inj, sum16_toNat]
  exact (rep_eq_zero_iff _).trans Nat.add_eq_zero_iff

/-- R63 (g). -/
theorem sum16_not16 (a : U16) : sum16 a (not16 a) = 0xFFFF := by
  have hle : a.toNat ≤ 0xFFFF := Nat.le_of_lt_succ a.isLt
  apply BitVec.eq_of_toNat_eq
  rw [sum16_toNat, not16_toNat, Nat.add_sub_cancel' hle]
  rfl

/-! ## The word sequence, two bytes at a time (R36, R37, R64) -/

theorem wordsOf_nil : wordsOf [] = [] := rfl

theorem wordsOf_singleton (x : Byte) : wordsOf [x] = [x.toNat] := by simp [wordsOf, tailWord]

theorem tailWord_cons_cons (x y : Byte) (bs : List Byte) : tailWord (x :: y :: bs) = tailWord bs := by
  cases bs with
  | nil => simp [tailWord]
  | cons z zs =>
    have hparity : (x :: y :: z :: zs).length % 2 = (z :: zs).length % 2 := Nat.add_mod_right _ 2
    rw [tailWord, tailWord, hparity]
    rfl

/-- The first two bytes are the first word, and the rest of the sequence is that of the rest. -/
theorem wordsOf_cons_cons (x y : Byte) (bs : List Byte) :
    wordsOf (x :: y :: bs) = (x.toNat + 256 * y.toNat) :: wordsOf bs := by
  have hhalf : (x :: y :: bs).length / 2 = bs.length / 2 + 1 := Nat.add_div_right _ Nat.two_pos
  have hword : ∀ k, wholeWord (x :: y :: bs) (k + 1) = wholeWord bs k := fun k => rfl
  rw [wordsOf, wordsOf, tailWord_cons_cons, hhalf, List.range_succ_eq_map, List.map_cons, List.map_map, List.cons_append]
  exact congrArg (fun ws => _ :: (ws ++ _)) (List.map_congr_left fun k _ => hword k)

theorem wordsOf_le (buf : List Byte) : ∀ w ∈ wordsOf buf, w ≤ 0xFFFF := by
  induction buf using List.twoStepInduction with
  | nil => simp [wordsOf_nil]
  | singleton x =>
    have hx := x.isLt
    simp only [wordsOf_singleton, List.mem_singleton, forall_eq]
    omega
  | cons_cons x y bs ih _ =>
    have hx := x.isLt
    have hy := y.isLt
    rw [wordsOf_cons_cons]
    exact List.forall_mem_cons.mpr ⟨by omega, ih⟩

/-- Bytes after an even length start a word of their own. -/
theorem wordsOf_append (buf bs : List Byte) (h : buf.length % 2 = 0) : wordsOf (buf ++ bs) = wordsOf buf ++ wordsOf bs := by
  induction buf using List.twoStepInduction with
  | nil => rfl
  | singleton x => cases h
  | cons_cons x y rest ih _ =>
    have hrest : rest.length % 2 = 0 := (Nat.add_mod_right _ 2).symm.trans h
    simp only [List.cons_append, wordsOf_cons_cons, ih hrest]

@[simp] theorem wordSum_nil : wordSum [] = 0 := rfl

@[simp] theorem wordSum_singleton (x : Byte) : wordSum [x] = x.toNat := by
  rw [wordSum, wordsOf_singleton, List.sum_singleton]

@[simp] theorem wordSum_cons_cons (x y : Byte) (bs : List Byte) :
    wordSum (x :: y :: bs) = x.toNat + 256 * y.toNat + wordSum bs := by
  rw [wordSum, wordsOf_cons_cons, List.sum_cons, wordSum]

/-- The word sum is zero only when every byte is (R66 (a)). -/
theorem wordSum_eq_zero_iff (buf : List Byte) : wordSum buf = 0 ↔ ∀ b ∈ buf, b = 0x00 := by
  have hbyte : ∀ b : Byte, b.toNat = 0 ↔ b = 0x00 := fun b => BitVec.toNat_inj (y := 0x00)
  induction buf using List.twoStepInduction with
  | nil => simp
  | singleton x => simp [hbyte]
  | cons_cons x y bs ih _ => simp [ih, hbyte, and_assoc]

theorem wordSum_replicate_zero (n : Nat) : wordSum (List.replicate n 0x00) = 0 :=
  (wordSum_eq_zero_iff _).mpr fun _ hb => List.eq_of_mem_replicate hb

/-- Zeros at the end add nothing: the first one after an odd length is the high byte the tail word already had (R67 (d)). -/
theorem wordSum_append_zeros (buf : List Byte) (n : Nat) : wordSum (buf ++ List.replicate n 0x00) = wordSum buf := by
  induction buf using List.twoStepInduction with
  | nil => exact wordSum_replicate_zero n
  | singleton x =>
    cases n with
    | zero => rfl
    | succ n =>
      rw [List.replicate_succ, List.singleton_append, wordSum_cons_cons, wordSum_replicate_zero, wordSum_singleton]
      rfl
  | cons_cons x y bs ih _ => rw [List.cons_append, List.cons_append, wordSum_cons_cons, wordSum_cons_cons, ih]

/-! ## The accumulator (R65, R66 (d)) -/

/-- Folding words into an accumulator gives the representative of the ordinary sum of all of them. -/
theorem accumulateFrom_toNat (acc : U16) (ws : List Nat) (h : ∀ w ∈ ws, w ≤ 0xFFFF) :
    (accumulateFrom acc ws).toNat = rep (acc.toNat + ws.sum) := by
  induction ws generalizing acc with
  | nil => exact (rep_of_le acc.toNat (Nat.le_of_lt_succ acc.isLt)).symm
  | cons w ws ih =>
    obtain ⟨hw, hws⟩ := List.forall_mem_cons.mp h
    have hval : (BitVec.ofNat 16 w).toNat = w := by
      rw [BitVec.toNat_ofNat, Nat.mod_eq_of_lt (by omega)]
    rw [accumulateFrom_cons, ih _ hws, sum16_toNat, hval, rep_rep_add, List.sum_cons, Nat.add_assoc]

theorem accumulate_toNat (ws : List Nat) (h : ∀ w ∈ ws, w ≤ 0xFFFF) : (accumulate ws).toNat = rep ws.sum := by
  rw [accumulate_eq, accumulateFrom_toNat accInit ws h]
  exact congrArg rep (Nat.zero_add _)

/-! ## The checksum of a buffer (R65, R66) -/

/-- The checksum `CSUM` answers: the complement of the accumulator after `W(buf)`. -/
def csumOf (buf : List Byte) : U16 := not16 (accumulate (wordsOf buf))

/-- `CSUM` answers this checksum and no other. -/
theorem csumAnswers_iff (buf : List Byte) (c : U16) : CsumAnswers buf c ↔ c = csumOf buf := by
  constructor
  · intro h
    have hnext := (h State.reset).symm.trans (exec_csum_eq buf State.reset)
    have hresp := congrArg State.response (Host.Outcome.next.inj hnext)
    exact congrArg CsumResponse.csum (Response.csum.inj (Option.some.inj hresp))
  · rintro rfl
    exact exec_csum_eq buf

theorem csumAnswers_csumOf (buf : List Byte) : CsumAnswers buf (csumOf buf) := (csumAnswers_iff buf _).mpr rfl

/-- The closed form of R66. -/
theorem csumOf_toNat (buf : List Byte) : (csumOf buf).toNat = 0xFFFF - rep (wordSum buf) := by
  rw [csumOf, not16_toNat, accumulate_toNat _ (wordsOf_le buf), wordSum]

theorem csumAnswers_of_toNat (buf : List Byte) (c : U16) (h : c.toNat = 0xFFFF - rep (wordSum buf)) : CsumAnswers buf c :=
  (csumAnswers_iff buf c).mpr (BitVec.eq_of_toNat_eq (h.trans (csumOf_toNat buf).symm))

/-- R72: the checksum depends on the representative of the word sum alone. -/
theorem csumOf_congr (buf buf' : List Byte) (h : rep (wordSum buf) = rep (wordSum buf')) : csumOf buf = csumOf buf' :=
  BitVec.eq_of_toNat_eq (by rw [csumOf_toNat, csumOf_toNat, h])

/-- R66 (a). -/
theorem csumOf_eq_ones_iff (buf : List Byte) : csumOf buf = 0xFFFF ↔ wordSum buf = 0 := by
  have hle : rep (wordSum buf) ≤ 0xFFFF := rep_le _
  rw [← BitVec.toNat_inj, csumOf_toNat, ← rep_eq_zero_iff, ones_toNat]
  omega

/-- R66 (b). -/
theorem csumOf_eq_zero_iff (buf : List Byte) : csumOf buf = 0x0000 ↔ 0 < wordSum buf ∧ 0xFFFF ∣ wordSum buf := by
  have hle : rep (wordSum buf) ≤ 0xFFFF := rep_le _
  rw [← BitVec.toNat_inj, csumOf_toNat, ← rep_eq_max_iff, zero_toNat]
  omega

theorem csumOf_singleton_toNat (x : Byte) : (csumOf [x]).toNat = 0xFFFF - x.toNat := by
  have hx := x.isLt
  rw [csumOf_toNat, wordSum_singleton, rep_of_le _ (by omega)]

/-- One byte never reaches the high byte of the sum, so that of its complement is all ones (R67 (b)). -/
theorem csumOf_singleton_high (x : Byte) : (csumOf [x]).extractLsb' 8 8 = 0xFF := by
  have hx := x.isLt
  apply BitVec.eq_of_toNat_eq
  rw [BitVec.extractLsb'_toNat, csumOf_singleton_toNat, Nat.shiftRight_eq_div_pow]
  change (0xFFFF - x.toNat) / 256 % 256 = 0xFF
  omega

/-! ## Sealing (R70) -/

@[simp] theorem length_sealAt (buf : List Byte) (o : Nat) (c : U16) : (sealAt buf o c).length = buf.length := by
  simp [sealAt]

/-- The two bytes a field is sealed with, low byte first, make up the value (R35). -/
theorem halves_toNat (c : U16) : (c.extractLsb' 0 8).toNat + 256 * (c.extractLsb' 8 8).toNat = c.toNat := by
  have hc := c.isLt
  simp only [BitVec.extractLsb'_toNat, Nat.shiftRight_eq_div_pow]
  omega

theorem le16_halves (c : U16) : le16 (c.extractLsb' 0 8) (c.extractLsb' 8 8) = c :=
  BitVec.eq_of_toNat_eq (by rw [le16_toNat, halves_toNat])

/-- Sealing a zeroed field that is a whole word adds the value to the word sum. -/
theorem wordSum_sealAt (buf : List Byte) (k : Nat) (c : U16) (h0 : buf[2 * k]? = some 0x00) (h1 : buf[2 * k + 1]? = some 0x00) :
    wordSum (sealAt buf (2 * k) c) = wordSum buf + c.toNat := by
  induction k generalizing buf with
  | zero =>
    match buf, h0, h1 with
    | x :: y :: bs, h0, h1 =>
      cases h0
      cases h1
      have hseal : sealAt (0x00 :: 0x00 :: bs) (2 * 0) c = c.extractLsb' 0 8 :: c.extractLsb' 8 8 :: bs := rfl
      rw [hseal, wordSum_cons_cons, wordSum_cons_cons, halves_toNat, Nat.add_comm]
      simp
  | succ k ih =>
    match buf, h0, h1 with
    | x :: y :: bs, h0, h1 =>
      have hstep : sealAt (x :: y :: bs) (2 * (k + 1)) c = x :: y :: sealAt bs (2 * k) c := rfl
      rw [hstep, wordSum_cons_cons, wordSum_cons_cons, ih bs h0 h1, ← Nat.add_assoc]

/-- The sealing property: with its own checksum in the field, the checksum of a buffer is zero. -/
theorem csumOf_sealAt (buf : List Byte) (o : Nat) (ho : o % 2 = 0) (h0 : buf[o]? = some 0x00) (h1 : buf[o + 1]? = some 0x00) :
    csumOf (sealAt buf o (csumOf buf)) = 0x0000 := by
  obtain ⟨k, rfl⟩ : ∃ k, o = 2 * k := ⟨o / 2, by omega⟩
  apply BitVec.eq_of_toNat_eq
  rw [csumOf_toNat, wordSum_sealAt buf k _ h0 h1, csumOf_toNat, rep_add_complement]
  rfl

theorem csumAnswers_sealAt (buf : List Byte) (o : Nat) (ho : o % 2 = 0) (h0 : buf[o]? = some 0x00)
    (h1 : buf[o + 1]? = some 0x00) : CsumAnswers (sealAt buf o (csumOf buf)) 0x0000 :=
  (csumAnswers_iff _ _).mpr (csumOf_sealAt buf o ho h0 h1).symm

/-- The word read back from a sealed field is the value it was sealed with. -/
theorem le16_sealAt (buf : List Byte) (o : Nat) (c : U16) (h : o + 1 < (sealAt buf o c).length) :
    le16 (sealAt buf o c)[o] (sealAt buf o c)[o + 1] = c := by
  simp only [sealAt, List.getElem_set_self, List.getElem_set_ne (Nat.succ_ne_self o), le16_halves]

/-- A field past byte 0 leaves the shape of the segment as it was (R51, R55). -/
theorem synBit_sealAt (buf : List Byte) (o : Nat) (c : U16) : synBit (sealAt buf (o + 1) c) = synBit buf := by
  cases buf <;> rfl

/-- The upper half of a 32-bit field is its last two bytes (R99). -/
theorem extractLsb'_le32 (b0 b1 b2 b3 : Byte) : (le32 b0 b1 b2 b3).extractLsb' 16 16 = le16 b2 b3 := by
  ext i hi
  simp only [le32, le16, BitVec.getElem_extractLsb', BitVec.getLsbD_or, BitVec.getLsbD_setWidth, BitVec.getLsbD_shiftLeft,
    BitVec.getElem_or, BitVec.getElem_setWidth, BitVec.getElem_shiftLeft]
  grind

/-! ## `VERIFY` (R69) -/

/-- `VERIFY` ends as `CSUM` does: in the response with the checksum of the buffer. -/
theorem exec_verify_eq (buf : List Byte) (s : State) :
    exec (.verify buf) s = .next (respond (.csum (csumResponse (csumOf buf))) s) := exec_csum_eq buf s

theorem csumZero_iff (c : U16) : (csumResponse c).csumZero = true ↔ c = 0x0000 := beq_iff_eq

theorem verdict_respond_csum (r : CsumResponse) (s : State) : (respond (.csum r) s).verdict = some r.csumZero := rfl

/-- A buffer whose checksum is zero passes, from every state. -/
theorem verify_passes (buf : List Byte) (s : State) (h : csumOf buf = 0x0000) :
    ∃ t, exec (.verify buf) s = .next t ∧ t.verdict = some true :=
  ⟨_, exec_verify_eq buf s, by rw [verdict_respond_csum, (csumZero_iff _).mpr h]⟩

/-! ## The statements -/

/-- Settles O19: the fold fits its 16 bits, being a representative. -/
theorem sum16IsSingleFold : Obligations.Sum16IsSingleFold := fun a b => by
  rw [sum16_toNat, fold_add_eq_rep]

/-- Settles O20, law by law from `SUM16(a, b) = rep(a + b)`. -/
theorem sum16Laws : Obligations.Sum16Laws := by
  refine ⟨fun a b => ⟨?_, ?_⟩, fun a b => ⟨sum16_toNat a b, ?_⟩, sum16_comm,
    fun a b c => ⟨sum16_assoc a b c, sum16_sum16_toNat a b c⟩, sum16_zero, fun a => ⟨sum16_ones a, rfl⟩,
    sum16_eq_zero_iff, sum16_not16, rfl⟩
  · rw [fold_add_eq_rep]
    exact rep_le _
  · have hlt := (sum16 a b).isLt
    rw [fold_eq_rep _ (by omega), rep_of_le _ (by omega)]
  · have hle := add_toNat_le a b
    rw [sum16_toNat]
    split
    · next hsmall => exact rep_of_le _ hsmall
    · rw [rep_of_pos _ (by omega)]
      omega

/-- Settles O21: the arm writes `ACC` and nothing else. -/
theorem sum16Completes : Obligations.Sum16Completes := fun a b _ =>
  ⟨sum16 a b, rfl, sum16IsSingleFold a b⟩

/-- Settles O22, from the loop invariant of `csumWhile_remaining`. -/
theorem csumLoopIsFoldOverWords : Obligations.CsumLoopIsFoldOverWords := fun buf s =>
  ⟨_, exec_csum_eq buf s, rfl, csumZero_iff _⟩

/-- Settles O24: each consequence is a property of `rep`. -/
theorem csumClosedForm : Obligations.CsumClosedForm := by
  intro buf
  refine ⟨csumOf buf, csumAnswers_csumOf buf, csumOf_toNat buf, (csumOf_eq_ones_iff buf).mpr, fun hpos => ?_,
    csumOf_eq_ones_iff buf, wordSum_eq_zero_iff buf, csumOf_eq_zero_iff buf, fun buf' h => ?_, fun n => ?_⟩
  · rw [csumOf_toNat, rep_of_pos _ hpos]
    omega
  · have hsum : wordSum buf = wordSum buf' := h.elim List.Perm.sum_eq id
    exact (csumAnswers_iff buf' _).mpr (csumOf_congr buf buf' (congrArg rep hsum))
  · exact accumulate_toNat _ fun w hw => wordsOf_le buf w (List.mem_of_mem_take hw)

/-- Settles O25: the written-out buffers by their word sums, the rest by what appended bytes do to the words. -/
theorem csumCornerCases : Obligations.CsumCornerCases := by
  refine ⟨csumAnswers_of_toNat _ _ rfl, fun x => ?_, fun n => ?_, fun buf n => ?_, fun buf x y heven => ⟨?_, ?_⟩,
    csumAnswers_of_toNat _ _ rfl, csumAnswers_of_toNat _ _ rfl, csumAnswers_of_toNat _ _ rfl, csumAnswers_of_toNat _ _ rfl⟩
  · exact ⟨csumOf [x], csumAnswers_csumOf [x], csumOf_singleton_toNat x, csumOf_singleton_high x⟩
  · exact csumAnswers_of_toNat _ _ (by rw [wordSum_replicate_zero]; rfl)
  · refine ⟨csumOf buf, csumAnswers_csumOf buf, csumAnswers_of_toNat _ _ ?_⟩
    rw [wordSum_append_zeros, csumOf_toNat]
  · rw [wordsOf_append buf _ heven, wordsOf_singleton]
  · rw [List.append_assoc, wordsOf_append buf _ heven]
    rw [List.singleton_append, wordsOf_cons_cons, wordsOf_nil, ← le16_toNat]
    rfl

/-- Settles O26: one run of the loop, read through `csum_zero`. -/
theorem verifyIsCsumReadThroughZero : Obligations.VerifyIsCsumReadThroughZero := fun buf s =>
  ⟨_, _, exec_verify_eq buf s, exec_csum_eq buf s, rfl, rfl, (csumZero_iff _).trans (csumOf_eq_zero_iff buf)⟩

/-- Settles O27: at an even offset the field is a whole word. At offset 1 of `[0x01, 0x00, 0x00]` it straddles two words. -/
theorem sealedBufferVerifies : Obligations.SealedBufferVerifies := by
  refine ⟨fun buf o ho _ h0 h1 => ⟨_, csumAnswers_csumOf buf, csumAnswers_sealAt buf o ho h0 h1⟩,
    [0x01, 0x00, 0x00], 1, 0xFFFE, rfl, by decide, rfl, rfl, csumAnswers_of_toNat _ _ rfl, fun h => ?_⟩
  have hzero := (csumAnswers_iff _ _).mp h
  exact absurd hzero (by decide)

/-- Settles O28: the verdict depends on `rep(S)` alone. The two buffers are the same two words in the other order. -/
theorem verifyDoesNotSeeEqualSums : Obligations.VerifyDoesNotSeeEqualSums := by
  refine ⟨fun buf buf' s h => by rw [exec_verify_eq, exec_verify_eq, csumOf_congr buf buf' h],
    [0xFF, 0xFF, 0x00, 0x00], [0x00, 0x00, 0xFF, 0xFF], by decide, rfl, fun s => ?_⟩
  obtain ⟨t, ht, hpass⟩ := verify_passes [0xFF, 0xFF, 0x00, 0x00] s (by decide)
  obtain ⟨t', ht', hpass'⟩ := verify_passes [0x00, 0x00, 0xFF, 0xFF] s (by decide)
  exact ⟨t, t', ht, hpass, ht', hpass'⟩

/-- Settles O29: both checksum fields are at even offsets past byte 0, so the sealed buffer verifies and keeps its shape, and `DECODE`
reads back what was written. -/
theorem sealedHeaderVerifiesAndDecodes : Obligations.SealedHeaderVerifiesAndDecodes := by
  refine ⟨fun buf s hshape hlen h0 h1 => ?_, fun buf s hshape hlen h0 h1 => ?_⟩
  · have hlen' : 8 ≤ (sealAt buf 6 (csumOf buf)).length := by rwa [length_sealAt]
    exact ⟨csumOf buf, _, _, csumAnswers_csumOf buf, csumAnswers_sealAt buf 6 rfl h0 h1,
      congrArg settle (decodeRun_data _ s _ hlen' ((synBit_sealAt buf 5 _).trans hshape) (nonSynHeader_eq_ok _ hlen')),
      le16_sealAt buf 6 _ _⟩
  · have hlen' : 22 ≤ (sealAt buf 20 (csumOf buf)).length := by rwa [length_sealAt]
    exact ⟨csumOf buf, _, _, csumAnswers_csumOf buf, csumAnswers_sealAt buf 20 rfl h0 h1,
      congrArg settle (decodeRun_syn _ s _ hlen' ((synBit_sealAt buf 19 _).trans hshape) (synExtension_eq_ok _ hlen')),
      le16_sealAt buf 20 _ _, (extractLsb'_le32 _ _ _ _).trans (le16_sealAt buf 20 _ _)⟩

end Sys2Proof.Machine

/-! # Proofs about the header decoder (41_header_decoder.md)

What `DECODE` answers in each of its five outcomes, said once by length and SYN bit: its codes, its consistency, the bytes it sees and
the sub-operations it is made of are read off this. -/

namespace Sys2Proof.Machine

/-! ## The five outcomes of `DECODE` (R74, R75) -/

/-- Past the first gate a buffer has a SYN bit, so each outcome is found by length and shape. -/
theorem exists_synBit (buf : List Byte) (h : 4 ≤ buf.length) : ∃ b, synBit buf = some b :=
  ⟨_, synBit_eq_flagsOf buf (by omega)⟩

/-- The SYN view of the extracted flag byte is the SYN bit of the buffer (R51, R79, R80). -/
theorem commonOf_flags_syn (buf : List Byte) (b : Bool) (h : 4 ≤ buf.length) (hb : synBit buf = some b) :
    (commonOf buf h).flags.syn = b :=
  Option.some.inj ((synBit_eq_flagsOf buf (by omega)).symm.trans hb)

theorem exec_decode_eq (buf : List Byte) (s : State) : exec (.decode buf) s = settle (decodeRun buf s) := rfl

theorem exec_decode_tooShort (buf : List Byte) (s : State) (h : buf.length < 4) :
    exec (.decode buf) s = .next (raise .tooShort s) := congrArg settle (decodeRun_short buf s h)

theorem exec_decode_tooShortForCommon (buf : List Byte) (s : State) (h4 : 4 ≤ buf.length) (h8 : buf.length < 8)
    (hsyn : synBit buf = some false) : exec (.decode buf) s = .next (raise .tooShortForCommon s) := by
  have hbit : (flagsOf buf[0]).syn = false := commonOf_flags_syn buf false h4 hsyn
  rw [exec_decode_eq, decodeRun_long buf s h4, if_neg (by simp [hbit]), dataBranch_short buf _ h8]
  rfl

theorem exec_decode_tooShortForSyn (buf : List Byte) (s : State) (h4 : 4 ≤ buf.length) (h22 : buf.length < 22)
    (hsyn : synBit buf = some true) : exec (.decode buf) s = .next (raise .tooShortForSyn s) := by
  have hbit : (flagsOf buf[0]).syn = true := commonOf_flags_syn buf true h4 hsyn
  rw [exec_decode_eq, decodeRun_long buf s h4, if_pos hbit, synBranch_short buf _ h22]
  rfl

theorem exec_decode_data (buf : List Byte) (s : State) (n : NonSynHeader) (h : 8 ≤ buf.length)
    (hsyn : synBit buf = some false) (hn : nonSynHeader buf = .ok n) :
    exec (.decode buf) s = .next (respond (.decode (.ok (.data (commonOf buf (by omega)) n))) s) :=
  congrArg settle (decodeRun_data buf s n h hsyn hn)

theorem exec_decode_syn (buf : List Byte) (s : State) (x : SynHeaderExtension) (h : 22 ≤ buf.length)
    (hsyn : synBit buf = some true) (hx : synExtension buf = .ok x) :
    exec (.decode buf) s = .next (respond (.decode (.ok (.syn (commonOf buf (by omega)) x))) s) :=
  congrArg settle (decodeRun_syn buf s x h hsyn hx)

/-! ## Every response is consistent (R21, R75, R99) -/

theorem csumResponse_consistent (c : U16) : Response.consistent (.csum (csumResponse c)) = true := beq_self_eq_true _

/-- The variant agrees with the SYN bit, and `checksum` is the upper half of `connection_id`, in whichever of the five outcomes. -/
theorem exists_exec_decode_consistent (buf : List Byte) :
    ∃ r : DecodeResult, Response.consistent (.decode r) = true ∧
      ∀ s, exec (.decode buf) s = .next (respond (.decode r) s) := by
  obtain h4 | h4 := Nat.lt_or_ge buf.length 4
  · exact ⟨_, rfl, fun s => exec_decode_tooShort buf s h4⟩
  obtain ⟨b, hb⟩ := exists_synBit buf h4
  have hflag : (commonOf buf h4).flags.syn = b := commonOf_flags_syn buf b h4 hb
  cases b with
  | true =>
    obtain h22 | h22 := Nat.lt_or_ge buf.length 22
    · exact ⟨_, rfl, fun s => exec_decode_tooShortForSyn buf s h4 h22 hb⟩
    · refine ⟨_, ?_, fun s => exec_decode_syn buf s _ h22 hb (synExtension_eq_ok buf h22)⟩
      simp only [Response.consistent, hflag, extractLsb'_le32, beq_self_eq_true, Bool.and_self]
  | false =>
    obtain h8 | h8 := Nat.lt_or_ge buf.length 8
    · exact ⟨_, rfl, fun s => exec_decode_tooShortForCommon buf s h4 h8 hb⟩
    · refine ⟨_, ?_, fun s => exec_decode_data buf s _ h8 hb (nonSynHeader_eq_ok buf h8)⟩
      simp only [Response.consistent, hflag, Bool.not_false]

/-- Both operations answer a consistent response, a function of the request, whatever the state. -/
theorem exists_exec_decodeOp_consistent (op : BitVec 1) (buf : List Byte) :
    ∃ r : Response, r.consistent = true ∧ ∀ s, exec (decodeOp op buf) s = .next (respond r s) := by
  obtain ⟨-, hop⟩ | ⟨-, hop⟩ := decodeOp_cases op buf
  · exact ⟨_, csumResponse_consistent _, fun s => hop ▸ exec_csum_eq buf s⟩
  · obtain ⟨r, hr, hexec⟩ := exists_exec_decode_consistent buf
    exact ⟨.decode r, hr, fun s => hop ▸ hexec s⟩

/-- What `DECODE` leaves as its response is consistent. -/
theorem consistent_of_exec_decode {buf : List Byte} {s t : State} {r : Response} (ht : exec (.decode buf) s = .next t)
    (hr : t.response = some r) : r.consistent = true := by
  obtain ⟨d, hd, hexec⟩ := exists_exec_decode_consistent buf
  cases (hexec s).symm.trans ht
  cases hr
  exact hd

/-- A consistent response establishes the invariant over a memory in canonical form, whatever was there before. -/
theorem inv_respond (r : Response) (s : State) (hmem : Memory.wf s.mem) (hr : r.consistent = true) : (respond r s).Inv :=
  ⟨hmem, rfl, hr⟩

theorem inv_endTransaction {s : State} (h : s.Inv) : (endTransaction s).Inv := h

/-! ## `variant` is the SYN flag (R59, R75) -/

theorem variant_data_of_consistent (c : CommonHeader) (n : NonSynHeader)
    (h : Response.consistent (.decode (.ok (.data c n))) = true) :
    Response.variant (.decode (.ok (.data c n))) = some (BitVec.ofBool c.flags.syn) := by
  have hsyn : c.flags.syn = false := by simpa [Response.consistent] using h
  rw [hsyn]
  rfl

theorem variant_syn_of_consistent (c : CommonHeader) (x : SynHeaderExtension)
    (h : Response.consistent (.decode (.ok (.syn c x))) = true) :
    Response.variant (.decode (.ok (.syn c x))) = some (BitVec.ofBool c.flags.syn) := by
  obtain ⟨hsyn, -⟩ : c.flags.syn = true ∧ _ := by simpa [Response.consistent] using h
  rw [hsyn]
  rfl

/-! ## The bytes `DECODE` sees (R32, R77) -/

/-- A read depends on the byte at its offset alone. -/
theorem read8_congr {buf buf' : List Byte} {o : Nat} (h : buf[o]? = buf'[o]?) : read8 buf o = read8 buf' o := by
  simp only [read8, h]

theorem synBit_congr {buf buf' : List Byte} (h : buf[0]? = buf'[0]?) : synBit buf = synBit buf' := by
  simp only [synBit, List.head?_eq_getElem?, h]

/-- The common header is read from offsets 0 to 3 (R79). -/
theorem commonOf_congr {buf buf' : List Byte} (h : 4 ≤ buf.length) (h' : 4 ≤ buf'.length)
    (hagree : ∀ o, o < 4 → buf[o]? = buf'[o]?) : commonOf buf h = commonOf buf' h' := by
  have hbyte : ∀ o, (ho : o < 4) → buf[o] = buf'[o] := fun o ho => by
    simpa [show o < buf.length by omega, show o < buf'.length by omega] using hagree o ho
  simp only [commonOf, hbyte 0 (by omega), hbyte 1 (by omega), hbyte 2 (by omega), hbyte 3 (by omega)]

/-- The non-SYN header is read from offsets 6 and 7 (R102, R103). -/
theorem nonSynHeader_congr {buf buf' : List Byte} (h6 : buf[6]? = buf'[6]?) (h7 : buf[7]? = buf'[7]?) :
    nonSynHeader buf = nonSynHeader buf' := by
  simp only [nonSynHeader, read16, read8_congr h6, read8_congr h7]

/-- The SYN extension is read from offsets below 22 (R84). -/
theorem synExtension_congr {buf buf' : List Byte} (hagree : ∀ o, o < 22 → buf[o]? = buf'[o]?) :
    synExtension buf = synExtension buf' := by
  have hread : ∀ o, o < 22 → read8 buf o = read8 buf' o := fun o ho => read8_congr (hagree o ho)
  simp (disch := decide) only [synExtension, read16, read32, hread]

/-- Two segments with the SYN bit clear that agree on bytes 0 to 3, 6 and 7 are not told apart. -/
theorem exec_decode_data_congr (buf buf' : List Byte) (s : State) (h : 8 ≤ buf.length) (h' : 8 ≤ buf'.length)
    (hsyn : synBit buf = some false) (hagree : ∀ o, o < 8 → o ≠ 4 → o ≠ 5 → buf[o]? = buf'[o]?) :
    exec (.decode buf) s = exec (.decode buf') s := by
  have hn : nonSynHeader buf = .ok _ := nonSynHeader_eq_ok buf h
  have hcommon := commonOf_congr (show 4 ≤ buf.length by omega) (show 4 ≤ buf'.length by omega)
    fun o ho => hagree o (by omega) (by omega) (by omega)
  have hsyn' := (synBit_congr (hagree 0 (by omega) (by omega) (by omega))).symm.trans hsyn
  have hn' := (nonSynHeader_congr (hagree 6 (by omega) (by omega) (by omega))
    (hagree 7 (by omega) (by omega) (by omega))).symm.trans hn
  rw [exec_decode_data buf s _ h hsyn hn, exec_decode_data buf' s _ h' hsyn' hn', hcommon]

/-- Two segments with the SYN bit set that agree on the first 22 bytes are not told apart. -/
theorem exec_decode_syn_congr (buf buf' : List Byte) (s : State) (h : 22 ≤ buf.length) (h' : 22 ≤ buf'.length)
    (hsyn : synBit buf = some true) (hagree : ∀ o, o < 22 → buf[o]? = buf'[o]?) :
    exec (.decode buf) s = exec (.decode buf') s := by
  have hx : synExtension buf = .ok _ := synExtension_eq_ok buf h
  have hcommon := commonOf_congr (show 4 ≤ buf.length by omega) (show 4 ≤ buf'.length by omega)
    fun o ho => hagree o (by omega)
  have hsyn' := (synBit_congr (hagree 0 (by omega))).symm.trans hsyn
  have hx' := (synExtension_congr hagree).symm.trans hx
  rw [exec_decode_syn buf s _ h hsyn hx, exec_decode_syn buf' s _ h' hsyn' hx', hcommon]

/-! ## The sub-operations (R79, R83, R100) -/

theorem exec_decodeCommon_short (buf : List Byte) (s : State) (h : buf.length < 4) :
    exec (.decodeCommon buf) s = .next (raise .tooShort s) := congrArg settle (if_pos h)

theorem exec_decodeCommon_long (buf : List Byte) (s : State) (h : 4 ≤ buf.length) :
    exec (.decodeCommon buf) s = .next (setCommon (commonOf buf h) (setFlags (flagsOf buf[0]) s)) :=
  congrArg settle ((if_neg (Nat.not_lt.mpr h)).trans (commonStep_eq_commonOf buf s h))

/-- On the shape it belongs to, past the first gate, a guarded step is its body. -/
theorem guarded_own_shape (want : Bool) (body : List Byte → State → Except Fault State) (buf : List Byte) (s : State)
    (h : 4 ≤ buf.length) (hshape : synBit buf = some want) : guarded want body buf s = body buf s := by
  have hbit : (flagsOf buf[0]).syn = want := commonOf_flags_syn buf want h hshape
  rw [guarded_long want body buf s h, if_pos hbit]

/-- `DECODE.SYNEXT` on a buffer of its shape is the extraction behind the SYN gate (R83). -/
theorem exec_decodeSynext_eq (buf : List Byte) (s : State) (h : 4 ≤ buf.length) (hsyn : synBit buf = some true) :
    exec (.decodeSynext buf) s = settle (synGate buf s (extractExt buf s)) :=
  congrArg settle (guarded_own_shape true _ buf s h hsyn)

/-- `DECODE.NONSYN` on a buffer of its shape is the extraction behind the gate of that shape (R100). -/
theorem exec_decodeNonsyn_eq (buf : List Byte) (s : State) (h : 4 ≤ buf.length) (hsyn : synBit buf = some false) :
    exec (.decodeNonsyn buf) s = settle (dataGate buf s (extractNs buf s)) :=
  congrArg settle (guarded_own_shape false _ buf s h hsyn)

theorem exec_decodeSynext_short (buf : List Byte) (s : State) (h4 : 4 ≤ buf.length) (h22 : buf.length < 22)
    (hsyn : synBit buf = some true) : exec (.decodeSynext buf) s = .next (raise .tooShortForSyn s) :=
  (exec_decodeSynext_eq buf s h4 hsyn).trans (congrArg settle (if_pos h22))

theorem exec_decodeNonsyn_short (buf : List Byte) (s : State) (h4 : 4 ≤ buf.length) (h8 : buf.length < 8)
    (hsyn : synBit buf = some false) : exec (.decodeNonsyn buf) s = .next (raise .tooShortForCommon s) :=
  (exec_decodeNonsyn_eq buf s h4 hsyn).trans (congrArg settle (if_pos h8))

theorem exec_decodeSynext_long (buf : List Byte) (s : State) (x : SynHeaderExtension) (h : 22 ≤ buf.length)
    (hsyn : synBit buf = some true) (hx : synExtension buf = .ok x) :
    exec (.decodeSynext buf) s = .next (setExt x s) :=
  (exec_decodeSynext_eq buf s (by omega) hsyn).trans
    (congrArg settle ((if_neg (Nat.not_lt.mpr h)).trans (extractExt_eq_ok buf s x hx)))

theorem exec_decodeNonsyn_long (buf : List Byte) (s : State) (n : NonSynHeader) (h : 8 ≤ buf.length)
    (hsyn : synBit buf = some false) (hn : nonSynHeader buf = .ok n) :
    exec (.decodeNonsyn buf) s = .next (setNs n s) :=
  (exec_decodeNonsyn_eq buf s (by omega) hsyn).trans
    (congrArg settle ((if_neg (Nat.not_lt.mpr h)).trans (extractNs_eq_ok buf s n hn)))

/-! ## The flag byte (R80) -/

/-- A mask of one bit tells that bit. -/
theorem getLsbD_iff_and_twoPow_ne_zero (b : Byte) (i : Nat) (hi : i < 8) :
    b.getLsbD i = true ↔ b &&& BitVec.twoPow 8 i ≠ 0 := by
  have hmask : BitVec.twoPow 8 i ≠ 0#8 := fun h => by
    simpa [BitVec.toNat_twoPow_of_lt hi] using congrArg BitVec.toNat h
  rw [BitVec.and_twoPow]
  cases b.getLsbD i <;> simp [hmask]

/-! ## The statements -/

/-- Settles O15: a step waits, or ends in one response over the same memory, and both operations answer consistently. -/
theorem stepKeepsInvariant : Obligations.StepKeepsInvariant := by
  intro s t hinv hstep
  obtain ⟨-, rfl⟩ | ⟨r, i, u, -, hi, hu, rfl⟩ := step_cases s t hstep
  · exact hinv
  · obtain ⟨hmem, -, -⟩ := hinv
    obtain ⟨buf, -, -, rfl⟩ := decodeRequest_cases r s.mem i hi
    obtain ⟨resp, hresp, hexec⟩ := exists_exec_decodeOp_consistent r.op buf
    cases (hexec s).symm.trans hu
    exact inv_endTransaction (inv_respond resp s hmem hresp)

/-- Settles O6: the codes are those of the table of R59, and `variant` equals the SYN flag because the response is consistent. -/
theorem responseCodes : Obligations.ResponseCodes := by
  refine ⟨fun _ _ => ⟨rfl, rfl⟩, fun _ _ => ⟨rfl, rfl⟩, ⟨rfl, rfl, rfl⟩, fun _ => rfl, fun _ => ⟨rfl, rfl⟩,
    fun buf s t c ht => ⟨?_, ?_⟩⟩
  · rintro ⟨n, hn⟩ r hr
    cases hn.symm.trans hr
    exact variant_data_of_consistent c n (consistent_of_exec_decode ht hn)
  · rintro ⟨x, hx⟩ r hr
    cases hx.symm.trans hr
    exact variant_syn_of_consistent c x (consistent_of_exec_decode ht hx)

/-- Settles O30, one outcome a clause. -/
theorem decodeOutcomeTable : Obligations.DecodeOutcomeTable := by
  intro buf s
  refine ⟨exec_decode_tooShort buf s, fun h4 h7 => exec_decode_tooShortForCommon buf s h4 (by omega), fun h8 hsyn => ?_,
    fun h4 h21 => exec_decode_tooShortForSyn buf s h4 (by omega), fun h22 hsyn => ?_⟩
  · exact ⟨_, _, commonOf_flags_syn buf false (by omega) hsyn, exec_decode_data buf s _ h8 hsyn (nonSynHeader_eq_ok buf h8)⟩
  · exact ⟨_, _, commonOf_flags_syn buf true (by omega) hsyn, exec_decode_syn buf s _ h22 hsyn (synExtension_eq_ok buf h22)⟩

/-- Settles O36: a prefix and a buffer with bytes 4 and 5 replaced agree with the segment on every byte `DECODE` reads. -/
theorem decodeSeesOnlyTheHeader : Obligations.DecodeSeesOnlyTheHeader := by
  refine ⟨fun buf s h8 hsyn => ?_, fun buf s h22 hsyn => ?_, fun buf x y s h8 hsyn => ?_⟩
  · exact exec_decode_data_congr buf _ s h8 (by simpa using h8) hsyn
      fun o ho _ _ => (List.getElem?_take_of_lt ho).symm
  · exact exec_decode_syn_congr buf _ s h22 (by simpa using h22) hsyn
      fun o ho => (List.getElem?_take_of_lt ho).symm
  · refine (exec_decode_data_congr buf _ s h8 (by simpa using h8) hsyn fun o _ h4 h5 => ?_).symm
    rw [List.getElem?_set_ne h5.symm, List.getElem?_set_ne h4.symm]

/-- Settles O45: the locals the sub-operations fill are what `DECODE` puts in its response, and a gate that raises discards them. -/
theorem decodeIsItsSubOperations : Obligations.DecodeIsItsSubOperations := by
  intro buf s h4
  refine ⟨_, _, exec_decodeCommon_long buf s h4, rfl, fun hsyn h22 => ?_, fun hsyn h8 => ?_,
    fun hsyn h22 => ?_, fun hsyn h8 => ?_⟩
  · have hx := synExtension_eq_ok buf h22
    exact ⟨_, _, _, exec_decodeSynext_long buf _ _ h22 hsyn hx, rfl, rfl, exec_decode_syn buf s _ h22 hsyn hx, rfl⟩
  · have hn := nonSynHeader_eq_ok buf h8
    exact ⟨_, _, _, exec_decodeNonsyn_long buf _ _ h8 hsyn hn, rfl, rfl, exec_decode_data buf s _ h8 hsyn hn, rfl⟩
  · rw [exec_decodeSynext_short buf _ h4 h22 hsyn, exec_decode_tooShortForSyn buf s h4 h22 hsyn]
    rfl
  · rw [exec_decodeNonsyn_short buf _ h4 h8 hsyn, exec_decode_tooShortForCommon buf s h4 h8 hsyn]
    rfl

/-- Settles O7: the arm of `step` for a request that decodes and completes. -/
theorem stepPerformsDecodedInstruction : Obligations.StepPerformsDecodedInstruction := step_of_exec

/-- Settles O31: each mask of R80 is one bit. -/
theorem flagViewsAreBits : Obligations.FlagViewsAreBits := fun raw =>
  ⟨rfl, getLsbD_iff_and_twoPow_ne_zero raw 0 (by decide), getLsbD_iff_and_twoPow_ne_zero raw 3 (by decide),
    getLsbD_iff_and_twoPow_ne_zero raw 4 (by decide), getLsbD_iff_and_twoPow_ne_zero raw 5 (by decide),
    getLsbD_iff_and_twoPow_ne_zero raw 6 (by decide), getLsbD_iff_and_twoPow_ne_zero raw 7 (by decide)⟩

/-- Settles O40: the arm leaves `flagsOf raw`, whose views are bits of the byte by definition. -/
theorem decodeFlagsCompletes : Obligations.DecodeFlagsCompletes := fun raw _ =>
  ⟨flagsOf raw, rfl, rfl, rfl, rfl, rfl, rfl, rfl, rfl⟩

/-- Settles O41: the first gate, then step 1 on the first four bytes. -/
theorem decodeCommonCompletes : Obligations.DecodeCommonCompletes :=
  ⟨fun _ _ _ _ _ s => exec_decodeCommon_long _ s (by simp), exec_decodeCommon_short⟩

end Sys2Proof.Machine

/-! # Proofs about the header variants (42_header_variants.md)

The fields of both variants in the bytes of the segment: the 32-bit field is two 16-bit fields one above the other, byte 4 is two
nibbles. With what `DECODE` answers for each shape, every statement is read off the bytes of an extraction. -/

namespace Sys2Proof.Machine

/-! ## Fields of two and four bytes (R35, R97) -/

/-- The value of the two-byte field at an offset, in the terms of the statements. -/
theorem le16_toNat_eq_getD (buf : List Byte) (o : Nat) (h : o + 1 < buf.length) :
    (le16 buf[o] buf[o + 1]).toNat = (buf.getD o 0).toNat + 256 * (buf.getD (o + 1) 0).toNat := by
  rw [le16_toNat, List.getD_eq_getElem _ _ (Nat.lt_of_succ_lt h), List.getD_eq_getElem _ _ h]

/-- A four-byte field is two two-byte fields, the later one above (R35). -/
theorem le32_eq_append (b0 b1 b2 b3 : Byte) : le32 b0 b1 b2 b3 = le16 b2 b3 ++ le16 b0 b1 := by
  ext i hi
  simp only [le32, le16, BitVec.getElem_or, BitVec.getElem_setWidth, BitVec.getElem_shiftLeft]
  grind

/-- The lower half of a four-byte field is its first two bytes (R99). -/
theorem extractLsb'_zero_le32 (b0 b1 b2 b3 : Byte) : (le32 b0 b1 b2 b3).extractLsb' 0 16 = le16 b0 b1 := by
  rw [le32_eq_append, BitVec.extractLsb'_append_eq_right]

/-- The little-endian value of four bytes (R35). -/
theorem le32_toNat (b0 b1 b2 b3 : Byte) :
    (le32 b0 b1 b2 b3).toNat = b0.toNat + 256 * b1.toNat + 65536 * b2.toNat + 16777216 * b3.toNat := by
  rw [le32_eq_append, BitVec.toNat_append, ← Nat.shiftLeft_add_eq_or_of_lt (le16 b0 b1).isLt, Nat.shiftLeft_eq,
    le16_toNat, le16_toNat]
  omega

/-! ## Byte 4 of a SYN header (R85 to R87) -/

theorem highNibble_toNat (b : Byte) : (highNibble b).toNat = b.toNat / 16 := by
  have hb := b.isLt
  rw [highNibble, BitVec.extractLsb'_toNat, Nat.shiftRight_eq_div_pow]
  omega

theorem lowNibble_toNat (b : Byte) : (lowNibble b).toNat = b.toNat % 16 :=
  BitVec.extractLsb'_toNat 0 4 b

/-- CHK, bit 2 of the low nibble, is bit 2 of the byte (R84, R87). -/
theorem getLsbD_lowNibble_two_iff (b : Byte) : (lowNibble b).getLsbD 2 = true ↔ b &&& 0x04 ≠ 0 := by
  have hbit : (lowNibble b).getLsbD 2 = b.getLsbD 2 := by simp [lowNibble]
  rw [hbit]
  exact getLsbD_iff_and_twoPow_ne_zero b 2 (by decide)

/-! ## The shape of a segment by the mask of R55 -/

theorem synBit_of_and_eq_mask (b : Byte) (bs : List Byte) (h : b &&& 0x80 = 0x80) : synBit (b :: bs) = some true :=
  congrArg some ((and_0x80_eq_iff b).mp h)

theorem synBit_of_and_eq_zero (b : Byte) (bs : List Byte) (h : b &&& 0x80 = 0x00) : synBit (b :: bs) = some false := by
  have hbit : b.getLsbD 7 = false := by
    rw [← Bool.not_eq_true, ← and_0x80_eq_iff, h]
    decide
  exact congrArg some hbit

/-! ## The extension behind a `Syn` response (R75, R84) -/

/-- `DECODE` answers `Syn` only past the SYN gate, with the extension of the buffer: every other outcome is another response. -/
theorem synExtension_of_exec_decode {buf : List Byte} {s t : State} {c : CommonHeader} {x : SynHeaderExtension}
    (ht : exec (.decode buf) s = .next t) (hr : t.response = some (.decode (.ok (.syn c x)))) :
    22 ≤ buf.length ∧ synExtension buf = .ok x := by
  obtain h4 | h4 := Nat.lt_or_ge buf.length 4
  · cases (exec_decode_tooShort buf s h4).symm.trans ht
    cases hr
  obtain ⟨b, hb⟩ := exists_synBit buf h4
  cases b with
  | true =>
    obtain h22 | h22 := Nat.lt_or_ge buf.length 22
    · cases (exec_decode_tooShortForSyn buf s h4 h22 hb).symm.trans ht
      cases hr
    · have hx := synExtension_eq_ok buf h22
      cases (exec_decode_syn buf s _ h22 hb hx).symm.trans ht
      cases hr
      exact ⟨h22, hx⟩
  | false =>
    obtain h8 | h8 := Nat.lt_or_ge buf.length 8
    · cases (exec_decode_tooShortForCommon buf s h4 h8 hb).symm.trans ht
      cases hr
    · cases (exec_decode_data buf s _ h8 hb (nonSynHeader_eq_ok buf h8)).symm.trans ht
      cases hr

/-! ## The statements -/

/-- Settles O32: the response of the `Data` outcome, with the bytes written out. -/
theorem decodeDataFields : Obligations.DecodeDataFields := fun b0 _ _ _ _ _ b6 b7 _ s hmask =>
  ⟨_, exec_decode_data _ s _ (by simp) (synBit_of_and_eq_zero b0 _ hmask) (nonSynHeader_eq_ok _ (by simp)), le16_toNat b6 b7⟩

/-- Settles O33: the response of the `Syn` outcome, with the bytes written out; the fields that are a whole byte are equal by definition. -/
theorem decodeSynFields : Obligations.DecodeSynFields := by
  intro b0 b1 b2 b3 b4 b5 b6 b7 b8 b9 b10 b11 b12 b13 b14 b15 b16 b17 b18 b19 b20 b21 rest s hmask
  exact ⟨_, exec_decode_syn _ s _ (by simp) (synBit_of_and_eq_mask b0 _ hmask) (synExtension_eq_ok _ (by simp)),
    highNibble_toNat b4, lowNibble_toNat b4, getLsbD_lowNibble_two_iff b4, rfl, le16_toNat b6 b7, le16_toNat b8 b9,
    le16_toNat b10 b11, le16_toNat b12 b13, rfl, rfl, rfl, rfl, le32_toNat b18 b19 b20 b21, le16_toNat b20 b21⟩

/-- Settles O35: `connection_id` is read from bytes 18 to 21, `checksum` from 20 and 21. -/
theorem checksumSharesConnectionIdBytes : Obligations.ChecksumSharesConnectionIdBytes := by
  intro buf s t c x ht hr
  obtain ⟨h22, hx⟩ := synExtension_of_exec_decode ht hr
  cases (synExtension_eq_ok buf h22).symm.trans hx
  refine ⟨(extractLsb'_le32 _ _ _ _).symm, ?_⟩
  rw [extractLsb'_zero_le32]
  exact le16_toNat_eq_getD buf 18 (by omega)

/-- Settles O42, the SYN shape past its gate and before it, the other shape, and below the first gate. -/
theorem decodeSynextCompletesOrRaises : Obligations.DecodeSynextCompletesOrRaises := by
  intro buf s
  refine ⟨fun h22 hsyn => ?_, fun h4 h21 hsyn => exec_decodeSynext_short buf s h4 (by omega) hsyn,
    fun h4 hsyn => congrArg settle (guarded_other_shape true _ buf s h4 hsyn),
    fun h4 => congrArg settle (guarded_short true _ buf s h4)⟩
  have hx := synExtension_eq_ok buf h22
  exact ⟨_, _, exec_decodeSynext_long buf s _ h22 hsyn hx, exec_decode_syn buf s _ h22 hsyn hx⟩

/-- Settles O43, the shape with SYN clear past its gate and before it, the SYN shape, and below the first gate. -/
theorem decodeNonsynCompletesOrRaises : Obligations.DecodeNonsynCompletesOrRaises := by
  intro buf s
  refine ⟨fun h8 hsyn => ?_, fun h4 h7 hsyn => exec_decodeNonsyn_short buf s h4 (by omega) hsyn,
    fun h4 hsyn => congrArg settle (guarded_other_shape false _ buf s h4 hsyn),
    fun h4 => congrArg settle (guarded_short false _ buf s h4)⟩
  exact ⟨_, exec_decodeNonsyn_long buf s _ h8 hsyn (nonSynHeader_eq_ok buf h8), le16_toNat_eq_getD buf 6 h8⟩

end Sys2Proof.Machine

/-! # Proofs about the exceptions (60_exceptions.md)

The cause of each error and the gates that leave none are named once. What `DECODE` answers is then one case distinction, gate or cause,
and a request is one step to one response whatever the block held before. -/

namespace Sys2Proof.Machine

/-! ## Causes and gates (R74, R75, R105 to R107) -/

/-- The cause of each error of `DECODE`, in the terms of the statements (R105, R106, R107). -/
def ErrorCause (buf : List Byte) : DecodeError → Prop
  | .tooShort => buf.length < 4
  | .tooShortForCommon => 4 ≤ buf.length ∧ buf.length < 8 ∧ synBit buf = some false
  | .tooShortForSyn => 4 ≤ buf.length ∧ buf.length < 22 ∧ synBit buf = some true

/-- The buffer has a shape and passes the gate of that shape (R75). -/
def PassesGate (buf : List Byte) : Prop :=
  (8 ≤ buf.length ∧ synBit buf = some false) ∨ (22 ≤ buf.length ∧ synBit buf = some true)

/-- A buffer that passes no gate has the cause of an error. -/
theorem passesGate_or_errorCause (buf : List Byte) : PassesGate buf ∨ ∃ e, ErrorCause buf e := by
  obtain h4 | h4 := Nat.lt_or_ge buf.length 4
  · exact .inr ⟨.tooShort, h4⟩
  obtain ⟨b, hb⟩ := exists_synBit buf h4
  cases b with
  | true =>
    obtain h22 | h22 := Nat.lt_or_ge buf.length 22
    · exact .inr ⟨.tooShortForSyn, h4, h22, hb⟩
    · exact .inl (.inr ⟨h22, hb⟩)
  | false =>
    obtain h8 | h8 := Nat.lt_or_ge buf.length 8
    · exact .inr ⟨.tooShortForCommon, h4, h8, hb⟩
    · exact .inl (.inl ⟨h8, hb⟩)

theorem exec_decode_of_errorCause {buf : List Byte} {e : DecodeError} (h : ErrorCause buf e) (s : State) :
    exec (.decode buf) s = .next (raise e s) := by
  cases e with
  | tooShort => exact exec_decode_tooShort buf s h
  | tooShortForCommon =>
    obtain ⟨h4, h8, hsyn⟩ := h
    exact exec_decode_tooShortForCommon buf s h4 h8 hsyn
  | tooShortForSyn =>
    obtain ⟨h4, h22, hsyn⟩ := h
    exact exec_decode_tooShortForSyn buf s h4 h22 hsyn

theorem exec_decode_of_passesGate {buf : List Byte} (h : PassesGate buf) (s : State) :
    ∃ hdr, exec (.decode buf) s = .next (respond (.decode (.ok hdr)) s) := by
  obtain ⟨h8, hsyn⟩ | ⟨h22, hsyn⟩ := h
  · exact ⟨_, exec_decode_data buf s _ h8 hsyn (nonSynHeader_eq_ok buf h8)⟩
  · exact ⟨_, exec_decode_syn buf s _ h22 hsyn (synExtension_eq_ok buf h22)⟩

/-- `DECODE` answers an error exactly on its cause: past a gate the response is `Ok`, and otherwise it is the error whose cause holds. -/
theorem response_err_iff_errorCause {buf : List Byte} {s t : State} (ht : exec (.decode buf) s = .next t)
    (e : DecodeError) : t.response = some (.decode (.err e)) ↔ ErrorCause buf e := by
  constructor
  · intro hr
    obtain hgate | ⟨e', hcause⟩ := passesGate_or_errorCause buf
    · obtain ⟨hdr, hok⟩ := exec_decode_of_passesGate hgate s
      cases hok.symm.trans ht
      cases hr
    · cases (exec_decode_of_errorCause hcause s).symm.trans ht
      cases hr
      exact hcause
  · intro hcause
    cases (exec_decode_of_errorCause hcause s).symm.trans ht
    rfl

/-! ## A presented request (R111, R112) -/

/-- A presented request is the words of its operation, so it decodes (R14, R48). -/
theorem step_present_of_exec {op : BitVec 1} {buf : List Byte} {s t : State}
    (h : exec (decodeOp op buf) (present op buf s) = .next t) : step (present op buf s) = .next (endTransaction t) :=
  step_of_exec _ t _ _ (present_request s op buf) (decodeWords_requestWords op buf) h

/-- What the block held before a request was presented does not matter (R12, R111). -/
theorem step_present_congr (op : BitVec 1) (buf : List Byte) (s1 s2 : State) :
    step (present op buf s1) = step (present op buf s2) :=
  transactionDependsOnRequestAlone _ _ rfl rfl (Option.some_ne_none _)

/-! ## A checksum that does not verify (R108) -/

theorem csumZero_eq_false_iff (c : U16) : (csumResponse c).csumZero = false ↔ c ≠ 0x0000 := beq_eq_false_iff_ne

/-- `VERIFY` of a buffer with a nonzero checksum answers it with `csum_zero` clear. -/
theorem exec_verify_of_ne_zero {buf : List Byte} {c : U16} (hc : CsumAnswers buf c) (hne : c ≠ 0x0000) (s : State) :
    exec (.verify buf) s = .next (respond (.csum { csum := c, csumZero := false }) s) := by
  obtain rfl := (csumAnswers_iff buf c).mp hc
  rw [exec_verify_eq, ← (csumZero_eq_false_iff _).mpr hne]
  rfl

/-! ## The statements -/

/-- Settles O9: the request decodes, and its operation ends in one response. -/
theorem everyRequestIsAnswered : Obligations.EveryRequestIsAnswered := by
  intro op buf s
  obtain ⟨r, hexec⟩ := exists_exec_decodeOp_eq op buf
  exact ⟨r, step_present_of_exec (hexec _)⟩

/-- Settles O10: every instruction completes, by writing registers or by answering. -/
theorem noInstructionStops : Obligations.NoInstructionStops := fun i s =>
  (exec_completes i s).imp fun _ ⟨hnext, _⟩ => hnext

/-- Settles O12: the second request's step is the same from every state, so from the one the first left, whatever its response. -/
theorem nothingIsRemembered : Obligations.NothingIsRemembered := fun _ op' _ buf' s t _ =>
  ⟨step_present_congr op' buf' t s, step_present_congr op' buf' t State.reset⟩

/-- Settles O38, one error a clause. -/
theorem decodeRaisesExactlyOnCause : Obligations.DecodeRaisesExactlyOnCause := fun _ _ _ ht =>
  ⟨response_err_iff_errorCause ht .tooShort, response_err_iff_errorCause ht .tooShortForCommon,
    response_err_iff_errorCause ht .tooShortForSyn⟩

/-- Settles O39: `VERIFY` reads the checksum and `DECODE` only the gates. The two segments are V-D7's and, of the SYN shape, `SYNX`:
neither holds the checksum that would seal it. -/
theorem wrongChecksumIsNoError : Obligations.WrongChecksumIsNoError := by
  refine ⟨fun buf c s hc hne => ⟨?_, fun hgate => exec_decode_of_passesGate hgate s⟩, ?_, ?_⟩
  · exact ⟨_, exec_verify_of_ne_zero hc hne s, rfl, verdict_respond_csum _ s⟩
  · exact ⟨[0x01, 0x02, 0x05, 0x03, 0x00, 0x00, 0xCD, 0xAB], 0x4F2C, csumAnswers_of_toNat _ _ rfl, by decide, by decide, rfl⟩
  · exact ⟨[0x80, 0x10, 0x05, 0x03, 0x14, 0x08, 0x00, 0x04, 0x64, 0x00, 0x32, 0x00, 0xB8, 0x0B, 0x0F, 0x02, 0x03, 0x03, 0x78, 0x56,
      0x34, 0x12], 0x665A, csumAnswers_of_toNat _ _ rfl, by decide, by decide, rfl⟩

/-- Settles O37: each error row is the `raise` of its error, which is a response and nothing else. -/
theorem errorOutcomesRaise : Obligations.ErrorOutcomesRaise := fun _ => ⟨rfl, rfl, rfl, rfl, rfl, rfl⟩

end Sys2Proof.Machine

/-! # Proofs about requests, idling and reset (10_state.md, 70_reset_and_hazards.md)

What `step` makes of a launch is read off the launch: with none it waits, with one that is no request it refuses. Reset is the state
that has none, so it waits, and it is one more state a request can be presented to. -/

namespace Sys2Proof.Machine

/-! ## A launch that is none, or no request (R14, R20; D10, U14) -/

/-- With no request pending the block waits. -/
theorem step_of_idle (s : State) (h : s.request = none) : step s = .next s := by
  simp only [step, h]

/-- Memory that is no buffer of `len` bytes decodes to no instruction: what decodes is the buffer the memory holds, all of it. -/
theorem exists_reject_of_not_buffer (r : Request) (m : Memory)
    (h : ∀ buf : List Byte, m = cellsOf buf → r.len ≠ buf.length) : ∃ why, decodeRequest r m = .error why := by
  cases hd : decodeRequest r m with
  | error why => exact ⟨why, rfl⟩
  | ok i =>
    obtain ⟨buf, hbuf, hlen, -⟩ := decodeRequest_cases r m i hd
    exact absurd hlen (h buf (cellsOf_bufferOf m buf hbuf))

/-! ## The state after reset (R30, R117) -/

@[simp] theorem reset_request : State.reset.request = none := rfl

@[simp] theorem reset_locals : State.reset.locals = Locals.empty := rfl

@[simp] theorem reset_response : State.reset.response = none := rfl

/-- The memory after reset lists no offset, so none exists (R31). -/
theorem read_reset (a : Nat) : Memory.read State.reset.mem a = none := rfl

/-! ## The statements -/

/-- Settles O4: what the memory holds decodes to no instruction, so the step names why and refuses. -/
theorem launchThatIsNoRequestIsRefused : Obligations.LaunchThatIsNoRequestIsRefused := by
  intro s r hr hmem
  obtain ⟨why, hreject⟩ := exists_reject_of_not_buffer r s.mem hmem
  exact ⟨why, step_of_reject s r why hr hreject⟩

/-- Settles O1: a request is read back as its operation, and the two codes name the two operations. -/
theorem requestOpSelectsOperation : Obligations.RequestOpSelectsOperation := fun buf =>
  ⟨decodeWords_requestWords 0 buf, decodeWords_requestWords 1 buf⟩

/-- Settles O17: reset leaves no launch, so the block waits, and what stood before a request never shows in its step. -/
theorem resetIsIdleAndForgets : Obligations.ResetIsIdleAndForgets :=
  ⟨fun _ => ⟨reset_request, reset_response, reset_locals⟩, fun s => step_of_idle (hardReset s) reset_request,
    fun op buf s => step_present_congr op buf (hardReset s) s⟩

/-- Settles O8: waiting is what the step does without a launch, whatever else the state holds. -/
theorem idleBlockWaits : Obligations.IdleBlockWaits := step_of_idle

/-- Settles O16: the memory lists nothing, and there is neither a local nor a response to check. -/
theorem invariantHoldsAtReset : Obligations.InvariantHoldsAtReset := ⟨List.Pairwise.nil, reset_locals, rfl⟩

/-- Settles O18: no local has a value, and the memory lists no offset. -/
theorem resetGivesNoValues : Obligations.ResetGivesNoValues :=
  ⟨rfl, rfl, reset_request, reset_response, read_reset⟩

end Sys2Proof.Machine
